-- ==== Sys2Proof/Word.lean ====
section
/-! DEFINITION. The words on the block's ports (spec/00_scope.md R10): a 16-bit command, a 64-bit
operand and result, a 3-bit status. Bit 0 is the least significant bit (R11). -/

namespace Sys2Proof

/-- The command word `CMD[15:0]` (R10, `CLEN` = 16). -/
abbrev CmdWord := BitVec 16

/-- A word of the `OPERAND` or `RESULT` port (R10, `XLEN` = 64). -/
abbrev PortWord := BitVec 64

/-- A word of the `STATUS` port (R10, `SLEN` = 3). -/
abbrev StatusWord := BitVec 3

end Sys2Proof
end

