-- ==== Sys2Proof/Syntax.lean ====
section
/-! DEFINITION. Requests and the twelve operations (spec/10_state.md R21; spec/30_encoding.md R61, R66).
An instruction is one whole request, as in the assembler line `<mnemonic> <W>, <operand>` of R72. -/

namespace Sys2Proof

/-- One request, the pair `(CMD[15:0], OPERAND[63:0])` (spec/10_state.md R21). -/
structure Request where
  cmd : CmdWord
  operand : PortWord
deriving DecidableEq, Repr

/-- The three codecs of spec/00_scope.md R2. -/
inductive Codec where
  /-- `U`, unsigned normalized -/
  | u
  /-- `SZ`, signed normalized with zero -/
  | sz
  /-- `SN`, signed normalized without zero -/
  | sn
deriving DecidableEq, Repr

/-- The direction, `CMD[2]` (R61). -/
inductive Dir where
  /-- quantize: float to code -/
  | encode
  /-- dequantize: code to float -/
  | decode
deriving DecidableEq, Repr

/-- The float format, `CMD[3]` (R61; spec/00_scope.md R8). -/
inductive Fmt where
  /-- IEEE 754 binary32, suffix `.S` -/
  | s
  /-- IEEE 754 binary64, suffix `.D` -/
  | d
deriving DecidableEq, Repr

/-- The twelve operations of R66, one constructor per row of the opcode table. `w` is the width field
as the integer it stands for (R63); the second argument is the word on the `OPERAND` port (R64). -/
inductive Instr where
  /-- `QU.S`, R120 -/
  | quS (w : Nat) (operand : PortWord)
  /-- `QSZ.S`, R140 -/
  | qszS (w : Nat) (operand : PortWord)
  /-- `QSN.S`, R160 -/
  | qsnS (w : Nat) (operand : PortWord)
  /-- `DQU.S`, R122 -/
  | dquS (w : Nat) (operand : PortWord)
  /-- `DQSZ.S`, R142 -/
  | dqszS (w : Nat) (operand : PortWord)
  /-- `DQSN.S`, R162 -/
  | dqsnS (w : Nat) (operand : PortWord)
  /-- `QU.D`, R121 -/
  | quD (w : Nat) (operand : PortWord)
  /-- `QSZ.D`, R141 -/
  | qszD (w : Nat) (operand : PortWord)
  /-- `QSN.D`, R161 -/
  | qsnD (w : Nat) (operand : PortWord)
  /-- `DQU.D`, R123 -/
  | dquD (w : Nat) (operand : PortWord)
  /-- `DQSZ.D`, R143 -/
  | dqszD (w : Nat) (operand : PortWord)
  /-- `DQSN.D`, R163 -/
  | dqsnD (w : Nat) (operand : PortWord)
deriving DecidableEq, Repr

/-- The width an instruction carries. -/
def Instr.width : Instr → Nat
  | .quS w _ | .qszS w _ | .qsnS w _ | .dquS w _ | .dqszS w _ | .dqsnS w _ => w
  | .quD w _ | .qszD w _ | .qsnD w _ | .dquD w _ | .dqszD w _ | .dqsnD w _ => w

/-- The operand word an instruction carries. -/
def Instr.operand : Instr → PortWord
  | .quS _ v | .qszS _ v | .qsnS _ v | .dquS _ v | .dqszS _ v | .dqsnS _ v => v
  | .quD _ v | .qszD _ v | .qsnD _ v | .dquD _ v | .dqszD _ v | .dqsnD _ v => v

/-- The codec of an operation (the table of R66). -/
def Instr.codec : Instr → Codec
  | .quS .. | .dquS .. | .quD .. | .dquD .. => .u
  | .qszS .. | .dqszS .. | .qszD .. | .dqszD .. => .sz
  | .qsnS .. | .dqsnS .. | .qsnD .. | .dqsnD .. => .sn

/-- The direction of an operation (the table of R66). -/
def Instr.dir : Instr → Dir
  | .quS .. | .qszS .. | .qsnS .. | .quD .. | .qszD .. | .qsnD .. => .encode
  | .dquS .. | .dqszS .. | .dqsnS .. | .dquD .. | .dqszD .. | .dqsnD .. => .decode

/-- The float format of an operation (the table of R66). -/
def Instr.fmt : Instr → Fmt
  | .quS .. | .qszS .. | .qsnS .. | .dquS .. | .dqszS .. | .dqsnS .. => .s
  | .quD .. | .qszD .. | .qsnD .. | .dquD .. | .dqszD .. | .dqsnD .. => .d

/-- The operation that the three orthogonal fields `CODEC`, `DIR`, `FMT` select (R61, R71). -/
def Instr.ofFields (c : Codec) (dir : Dir) (F : Fmt) (w : Nat) (operand : PortWord) : Instr :=
  match F, dir, c with
  | .s, .encode, .u => .quS w operand
  | .s, .encode, .sz => .qszS w operand
  | .s, .encode, .sn => .qsnS w operand
  | .s, .decode, .u => .dquS w operand
  | .s, .decode, .sz => .dqszS w operand
  | .s, .decode, .sn => .dqsnS w operand
  | .d, .encode, .u => .quD w operand
  | .d, .encode, .sz => .qszD w operand
  | .d, .encode, .sn => .qsnD w operand
  | .d, .decode, .u => .dquD w operand
  | .d, .decode, .sz => .dqszD w operand
  | .d, .decode, .sn => .dqsnD w operand

end Sys2Proof
end

