-- ==== Sys2Proof/WellFormed.lean ====
section
/-! DEFINITION. Which instructions a command word can carry: the 7-bit field `W` holds 0 to 127
(spec/30_encoding.md R61, R63, R72). A width outside the codec's legal range is not ill-formed: it is
encodable, and the operation faults (R69). -/

namespace Sys2Proof

/-- The width fits the field `CMD[10:4]` (R63: "All 128 field values are decodable"). -/
abbrev Instr.WellFormed (i : Instr) : Prop := i.width ≤ 127

end Sys2Proof
end

