-- ==== Sys2Proof/Decode.lean ====
section
/-! DEFINITION. The decoder of spec/30_encoding.md R71 and, after it, the encoder written from the
opcode table of R66; then the reading of a request from a table word, for the host. -/

namespace Sys2Proof

/-- Why a command word decodes to "illegal" (R71): the two causes of `ILLEGAL_COMMAND`. -/
inductive IllegalCommand where
  /-- `CMD[15:11] != 0` (R68) -/
  | reservedBits
  /-- `CMD[1:0] = 3` (R67) -/
  | reservedCodec
deriving DecidableEq, Repr

/-- `RSV = CMD[15:11]` (R61). -/
def cmdRsv (cmd : CmdWord) : BitVec 5 := cmd.extractLsb 15 11

/-- `CODEC = CMD[1:0]` (R61). -/
def cmdCodec (cmd : CmdWord) : BitVec 2 := cmd.extractLsb 1 0

/-- `DIR = CMD[2]` (R61). -/
def cmdDir (cmd : CmdWord) : BitVec 1 := cmd.extractLsb 2 2

/-- `FMT = CMD[3]` (R61). -/
def cmdFmt (cmd : CmdWord) : BitVec 1 := cmd.extractLsb 3 3

/-- `W = uint(CMD[10:4])`, not biased and not scaled (R63). -/
def cmdWidth (cmd : CmdWord) : Nat := (cmd.extractLsb 10 4).toNat

/-- The codec a `CODEC` field names; 3 is reserved (R61, R67). -/
def codecOfBits (b : BitVec 2) : Option Codec :=
  match b.toNat with
  | 0 => some .u
  | 1 => some .sz
  | 2 => some .sn
  | _ => none

/-- `DIR`: 0 = encode, 1 = decode (R61). -/
def dirOfBit (b : BitVec 1) : Dir := if b = 0#1 then .encode else .decode

/-- `FMT`: 0 = binary32, 1 = binary64 (R61). -/
def fmtOfBit (b : BitVec 1) : Fmt := if b = 0#1 then .s else .d

/-- The total decoder of R71: reserved bits first, then the reserved codec, then the operation. -/
def decode (r : Request) : Except IllegalCommand Instr :=
  if cmdRsv r.cmd ≠ 0#5 then .error .reservedBits
  else
    match codecOfBits (cmdCodec r.cmd) with
    | none => .error .reservedCodec
    | some c =>
      .ok (.ofFields c (dirOfBit (cmdDir r.cmd)) (fmtOfBit (cmdFmt r.cmd)) (cmdWidth r.cmd) r.operand)

/-- The opcode `OPC = CMD[3:0]` of each operation, the table of R66. -/
def Instr.opc : Instr → BitVec 4
  | .quS .. => 0x0#4
  | .qszS .. => 0x1#4
  | .qsnS .. => 0x2#4
  | .dquS .. => 0x4#4
  | .dqszS .. => 0x5#4
  | .dqsnS .. => 0x6#4
  | .quD .. => 0x8#4
  | .qszD .. => 0x9#4
  | .qsnD .. => 0xA#4
  | .dquD .. => 0xC#4
  | .dqszD .. => 0xD#4
  | .dqsnD .. => 0xE#4

/-- The command word with `RSV` zero: `CMD = (W << 4) | OPC` (R61, R66). -/
def cmdWord (w : Nat) (opc : BitVec 4) : CmdWord := 0#5 ++ BitVec.ofNat 7 w ++ opc

/-- The request that carries an instruction (R66 for the command, R64 for the operand). -/
def encode (i : Instr) : Request where
  cmd := cmdWord i.width i.opc
  operand := i.operand

/-- A request from its bits numbered as spec/opcode_table.json numbers them: bits 15..0 are the
command; bits 79..16, where `nbits` reaches them, are the operand; bits above `nbits` are 0. -/
def requestOfBits (nbits w : Nat) : Request where
  cmd := BitVec.ofNat 16 (w % 2 ^ nbits)
  operand := BitVec.ofNat 64 (w % 2 ^ nbits / 2 ^ 16)

/-- The instruction the decoder reads from an instruction whose bits are `w`. -/
def decodeTableWord (nbits w : Nat) : Option Instr := (decode (requestOfBits nbits w)).toOption

end Sys2Proof
end

