-- ==== Sys2Proof/Config.lean ====
section
/-! DEFINITION. The implementation parameters of the hardware (spec/00_scope.md R7, R9): constants,
"not readable or writable by any operation" (spec/10_state.md R26). Every operation is written over
any `Params`; the machine runs with `Config.params`. -/

namespace Sys2Proof

/-- The rounding step's treatment of an exact tie, the parameter `TIE` of R9. -/
inductive Tie where
  /-- round half away from zero -/
  | away
  /-- round half to even -/
  | even
deriving DecidableEq, Repr

/-- The three named parameters a model may take as arguments (R7, R9; spec/92_eei_decisions.md,
"Parameters a model may take as arguments"). -/
structure Params where
  /-- greatest legal width of the unsigned codec, `WMAX_U` -/
  wmaxU : Nat
  /-- greatest legal width of the two signed codecs, `WMAX_S` -/
  wmaxS : Nat
  /-- the tie rule, `TIE` -/
  tie : Tie
deriving DecidableEq, Repr

/-- The parameter values for which the rules are written: `2 <= WMAX_U <= 64` and
`2 <= WMAX_S <= 64`, with either tie rule (R7). -/
abbrev Params.Legal (p : Params) : Prop :=
  (2 ≤ p.wmaxU ∧ p.wmaxU ≤ 64) ∧ (2 ≤ p.wmaxS ∧ p.wmaxS ≤ 64)

/-- The parameters of this hardware: `WMAX_U` = 32, `WMAX_S` = 64, `TIE` = `AWAY` "at all times"
(R7, R9; spec/70_reset_and_hazards.md R240). -/
def Config.params : Params where
  wmaxU := 32
  wmaxS := 64
  tie := .away

end Sys2Proof
end

