-- ==== Sys2Proof/Machine/State.lean ====
section
/-! DEFINITION. The machine's state. The spec gives the block no architectural state at all ("the empty
tuple", spec/10_state.md R20); what stands here is the model's own view of its two ports: the requests
that wait and the responses delivered (log entry 1). -/

namespace Sys2Proof.Machine

/-- The four faults of spec/60_exceptions.md R212, carried by a response ("a model's fault type has
exactly four constructors", spec/93_implementation_defined.md S4). A fault is an answer, and the block
goes on to the next request (R211; log entry 9), so no step of this model stops with one: each stands only inside
`Response.fault`. All four are the spec's own (safe). -/
inductive Fault where
  /-- `ILLEGAL_COMMAND`: raised by the step on a request whose command word decodes to no operation
  (R213). Safe: the spec names it. -/
  | illegalCommand
  /-- `WIDTH_RANGE`: raised by all twelve operations when W is outside the codec's range (R214).
  Safe: the spec names it. -/
  | widthRange
  /-- `OPERAND_NAN`: raised by the six encode operations when the operand is a NaN (R215). Safe: the
  spec names it. -/
  | operandNan
  /-- `CODE_RANGE`: raised by the six decode operations when the operand is no code of width W
  (R216). Safe: the spec names it. -/
  | codeRange
deriving DecidableEq, Repr

/-- Why a step could refuse. No step of this model does. -/
inductive Refusal where
  /-- For an arm of `exec` without a meaning. Raised by no arm: all twelve have theirs. Safe: it stops. -/
  | notModelled (mnemonic : String)
deriving DecidableEq, Repr

/-- One response: `STATUS` = `OK` with a result, or a fault that carries no result (R22: "a model must
represent a faulting response as carrying no result"; log entry 5). -/
inductive Response where
  /-- `STATUS = 0` and `RESULT` -/
  | ok (result : PortWord)
  /-- `STATUS != 0` -/
  | fault (f : Fault)
deriving DecidableEq, Repr

/-- The requests that wait for their response and the responses delivered, both oldest first. These
are the model's fields; the spec's own state is empty (R20; log entry 1). -/
structure State where
  /-- presented by the host and not yet answered (R21, R24) -/
  requests : List Request
  /-- delivered to the host, in the order of their requests (R22, R46) -/
  responses : List Response
deriving DecidableEq, Repr

/-- After reset nothing waits and nothing has been answered: the block has no state to initialise and
"waits for a request" (spec/70_reset_and_hazards.md R240). -/
def State.reset : State where
  requests := []
  responses := []

end Sys2Proof.Machine
end

