-- ==== Sys2Proof/Machine/Flags.lean ====
section
/-! DEFINITION. The block has no flags (spec/10_state.md R25; spec/40_primitive.md R105). Its one status
output is the `STATUS` field of a response, whose codes are the table of spec/60_exceptions.md R212. -/

namespace Sys2Proof.Machine

/-- The `STATUS` code of a fault (R212). -/
def Fault.status : Fault → StatusWord
  | .illegalCommand => 1#3
  | .widthRange => 2#3
  | .operandNan => 3#3
  | .codeRange => 4#3

/-- The `STATUS` port of a response (R22, R212): 0 is `OK`. -/
def Response.status : Response → StatusWord
  | .ok _ => 0#3
  | .fault f => f.status

/-- The `RESULT` port of a response: valid only when `STATUS = 0` (R22). -/
def Response.result : Response → Option PortWord
  | .ok r => some r
  | .fault _ => none

end Sys2Proof.Machine
end

