-- ==== Sys2Proof/Machine/Operands.lean ====
section
/-! DEFINITION. How the operand and the result lie on their 64-bit ports (spec/30_encoding.md R64, R65),
and what an IEEE 754 bit pattern stands for (spec/40_primitive.md R92, R93, R95, R96). -/

namespace Sys2Proof.Machine

/-- The exponent field's width `E` (R95). -/
def expBits : Fmt → Nat
  | .s => 8
  | .d => 11

/-- The fraction field's width `P` (R95). -/
def fracBits : Fmt → Nat
  | .s => 23
  | .d => 52

/-- The exponent `bias` (R95). -/
def bias : Fmt → Nat
  | .s => 127
  | .d => 1023

/-- The three fields of a float bit pattern (R95): the sign bit, `uint` of the exponent field and
`uint` of the fraction field. -/
structure FloatFields where
  sign : Bool
  exp : Nat
  frac : Nat
deriving DecidableEq, Repr

/-- Fields that fit the format: what a bit pattern of format `F` can hold. -/
abbrev FloatFields.Fits (F : Fmt) (x : FloatFields) : Prop :=
  x.exp < 2 ^ expBits F ∧ x.frac < 2 ^ fracBits F

/-- The fields of a binary32 pattern (R95). -/
def fieldsS (v : BitVec 32) : FloatFields where
  sign := v.getLsbD 31
  exp := (v.extractLsb 30 23).toNat
  frac := (v.extractLsb 22 0).toNat

/-- The fields of a binary64 pattern (R95). -/
def fieldsD (v : BitVec 64) : FloatFields where
  sign := v.getLsbD 63
  exp := (v.extractLsb 62 52).toNat
  frac := (v.extractLsb 51 0).toNat

/-- The float on a port word: for `.S` the low half, the upper half ignored; for `.D` the whole word
(R64; the same placement serves a decode's `RESULT`, R65). -/
def floatOperand (F : Fmt) (operand : PortWord) : FloatFields :=
  match F with
  | .s => fieldsS (operand.extractLsb 31 0)
  | .d => fieldsD operand

/-- The pattern with the given binary32 fields (R95). -/
def packS (x : FloatFields) : BitVec 32 :=
  BitVec.ofBool x.sign ++ BitVec.ofNat 8 x.exp ++ BitVec.ofNat 23 x.frac

/-- The pattern with the given binary64 fields (R95). -/
def packD (x : FloatFields) : BitVec 64 :=
  BitVec.ofBool x.sign ++ BitVec.ofNat 11 x.exp ++ BitVec.ofNat 52 x.frac

/-- A float on the result port, `zext_64` of its pattern (R65). -/
def floatResult (F : Fmt) (x : FloatFields) : PortWord :=
  match F with
  | .s => (packS x).setWidth 64
  | .d => packD x

/-- The classes of R95. -/
inductive FloatClass where
  | nan
  | posInf
  | negInf
  | finite
deriving DecidableEq, Repr

/-- `fclass_F` (R95): a NaN is quiet or signalling, of any sign and payload; zeros, subnormals and
normals are finite. -/
def fclass (F : Fmt) (x : FloatFields) : FloatClass :=
  if x.exp = 2 ^ expBits F - 1 then
    if x.frac ≠ 0 then .nan
    else if x.sign then .negInf
    else .posInf
  else .finite

/-- `(-1)^s`. -/
def signFactor (s : Bool) : ℚ := if s then -1 else 1

/-- `fval_F` (R96), the exact value of a finite pattern: subnormals are not flushed, and both zeros
have the value 0. -/
def fval (F : Fmt) (x : FloatFields) : ℚ :=
  if x.exp = 0 then
    signFactor x.sign * (x.frac : ℚ) * (2 : ℚ) ^ (1 - (bias F : ℤ) - (fracBits F : ℤ))
  else
    signFactor x.sign * ((2 : ℚ) ^ fracBits F + (x.frac : ℚ)) *
      (2 : ℚ) ^ ((x.exp : ℤ) - (bias F : ℤ) - (fracBits F : ℤ))

/-- A code read from `OPERAND` (R93): `uint` for codec `U`, `sint` for `SZ` and `SN`. -/
def readCode (c : Codec) (operand : PortWord) : ℤ :=
  match c with
  | .u => operand.toNat
  | .sz | .sn => operand.toInt

/-- `widen(n) = bits_64(n)` (R92): zero-extends a code of `U`, sign-extends a code of `SZ` or `SN`. -/
def widen (n : ℤ) : PortWord := BitVec.ofInt 64 n

end Sys2Proof.Machine
end

