-- ==== Sys2Proof/Machine/Ops.lean ====
section
/-! DEFINITION. The operations all twelve instructions share: code ranges and formulas, the rounding and
clamping primitive, rounding to a float (spec/40_primitive.md R90 to R108), taking a request, delivering
a response and raising a fault (spec/60_exceptions.md R211). All arithmetic is in ℤ and ℚ, where nothing
wraps (R12, R90, R107). -/

namespace Sys2Proof.Machine

/-! ### Code ranges and formulas -/

/-- `lo(c, W)` (R91). -/
def lo (c : Codec) (w : Nat) : ℤ :=
  match c with
  | .u => 0
  | .sz | .sn => -(2 ^ (w - 1))

/-- `hi(c, W)` (R91). -/
def hi (c : Codec) (w : Nat) : ℤ :=
  match c with
  | .u => 2 ^ w - 1
  | .sz | .sn => 2 ^ (w - 1) - 1

/-- The greatest legal width of a codec: `WMAX_U` or `WMAX_S` (spec/00_scope.md R7). -/
def wmax (p : Params) (c : Codec) : Nat :=
  match c with
  | .u => p.wmaxU
  | .sz | .sn => p.wmaxS

/-- The width check of R108 and R214: `2 <= W <= wmax`. -/
abbrev LegalWidth (p : Params) (c : Codec) (w : Nat) : Prop := 2 ≤ w ∧ w ≤ wmax p c

/-- `n` is a code of codec `c` at width `w`: it lies in `[lo, hi]` (R91, R93). -/
abbrev IsCode (c : Codec) (w : Nat) (n : ℤ) : Prop := lo c w ≤ n ∧ n ≤ hi c w

/-- `scale(codec, W, f)`, exact in ℚ (the table of R108). -/
def scale (c : Codec) (w : Nat) (f : ℚ) : ℚ :=
  match c with
  | .u => f * (2 ^ w - 1)
  | .sz => f * (2 ^ (w - 1) - 1)
  | .sn => (f * (2 ^ w - 1) - 1) / 2

/-- `unscale(codec, W, c)`, exact in ℚ (the table of R108). -/
def unscale (c : Codec) (w : Nat) (n : ℤ) : ℚ :=
  match c with
  | .u => n / (2 ^ w - 1)
  | .sz => max (n / (2 ^ (w - 1) - 1)) (-1)
  | .sn => (2 * n + 1) / (2 ^ w - 1)

/-! ### The rounding and clamping primitive -/

/-- Round to nearest, half away from zero: `rnd` of R97. -/
def rndAway (x : ℚ) : ℤ := if 0 ≤ x then ⌊x + 1 / 2⌋ else -⌊-x + 1 / 2⌋

/-- Round to nearest, half to even: `rnd_even` of R97. -/
def rndEven (x : ℚ) : ℤ :=
  if x - ⌊x⌋ < 1 / 2 then ⌊x⌋
  else if 1 / 2 < x - ⌊x⌋ then ⌊x⌋ + 1
  else if ⌊x⌋ % 2 = 0 then ⌊x⌋
  else ⌊x⌋ + 1

/-- The integer rounding under the parameter `TIE` (R9, R97). -/
def rnd (t : Tie) (x : ℚ) : ℤ :=
  match t with
  | .away => rndAway x
  | .even => rndEven x

/-- `clamp(n, lo, hi)` (R99). -/
def clamp (n l h : ℤ) : ℤ := if n < l then l else if h < n then h else n

/-- `clamp_round(x, lo, hi)` of a finite `x` (R100). -/
def clampRound (t : Tie) (x : ℚ) (l h : ℤ) : ℤ := clamp (rnd t x) l h

/-! ### Rounding a rational to a float -/

/-- The integer `e` with `2^e <= a < 2^(e+1)`, for `a > 0` (R102): the lengths of numerator and
denominator give it up to one. -/
def ilog2 (a : ℚ) : ℤ :=
  if (2 : ℚ) ^ ((Nat.log2 a.num.natAbs : ℤ) - (Nat.log2 a.den : ℤ)) ≤ a then
    (Nat.log2 a.num.natAbs : ℤ) - (Nat.log2 a.den : ℤ)
  else (Nat.log2 a.num.natAbs : ℤ) - (Nat.log2 a.den : ℤ) - 1

/-- The significand `n = rnd_even(t)`, `t = a / 2^(e - P)`, of R102. -/
def significand (F : Fmt) (a : ℚ) : ℤ := rndEven (a / (2 : ℚ) ^ (ilog2 a - (fracBits F : ℤ)))

/-- The last two lines of R102: the significand `n` at exponent `e`, carried into the next binade when
it reaches `2^(P+1)`, as the fields `bits_E(e + bias)` and `bits_P(n - 2^P)`. -/
def normalFields (F : Fmt) (s : Bool) (e n : ℤ) : FloatFields :=
  if n = 2 ^ (fracBits F + 1) then
    { sign := s, exp := (BitVec.ofInt (expBits F) (e + 1 + bias F)).toNat, frac := 0 }
  else
    { sign := s, exp := (BitVec.ofInt (expBits F) (e + bias F)).toNat,
      frac := (BitVec.ofInt (fracBits F) (n - 2 ^ fracBits F)).toNat }

/-- `round_F(q)` (R102): nearest, ties to the even fraction; zero gives `+0.0` (R104). Stated by the
spec for the quotients that occur (R103); on others the field widths truncate (log entry 7). -/
def roundF (F : Fmt) (q : ℚ) : FloatFields :=
  if q = 0 then { sign := false, exp := 0, frac := 0 }
  else normalFields F (decide (q < 0)) (ilog2 |q|) (significand F |q|)

/-! ### The two kinds of operation -/

/-- The code of a float operand; none for a NaN, and the end code for an infinity (R100, R106, step 3a
of R108). -/
def quantize (p : Params) (c : Codec) (F : Fmt) (w : Nat) (x : FloatFields) : Option ℤ :=
  match fclass F x with
  | .nan => none
  | .posInf => some (hi c w)
  | .negInf => some (lo c w)
  | .finite => some (clampRound p.tie (scale c w (fval F x)) (lo c w) (hi c w))

/-- The response of an encode operation (R108, steps 2 and 3a): the width is checked before the
operand (R219). -/
def encodeOp (p : Params) (c : Codec) (F : Fmt) (w : Nat) (operand : PortWord) : Response :=
  if LegalWidth p c w then
    match quantize p c F w (floatOperand F operand) with
    | none => .fault .operandNan
    | some n => .ok (widen n)
  else .fault .widthRange

/-- The response of a decode operation (R108, steps 2 and 3b): the width is checked before the
operand (R219). -/
def decodeOp (p : Params) (c : Codec) (F : Fmt) (w : Nat) (operand : PortWord) : Response :=
  if LegalWidth p c w then
    if IsCode c w (readCode c operand) then
      .ok (floatResult F (roundF F (unscale c w (readCode c operand))))
    else .fault .codeRange
  else .fault .widthRange

/-! ### Requests and responses -/

/-- Take the oldest waiting request (R46: responses come in the order of the requests). -/
def fetch (s : State) : Option (Request × State) :=
  match s.requests with
  | [] => none
  | r :: rest => some (r, { s with requests := rest })

/-- Complete the transaction with a response (`respond` and `raise` of spec/00_scope.md R13). -/
def deliver (r : Response) (s : State) : State := { s with responses := s.responses ++ [r] }

/-- Raise a fault: the response carries its status and no result, and nothing else happens. Nothing is
saved and control goes nowhere, so there is nothing to return from (R211, R220, R222). -/
def raise (f : Fault) (s : State) : State := deliver (.fault f) s

end Sys2Proof.Machine
end

