-- ==== Sys2Proof/Machine/SignedWithZero.lean ====
section
/-! DEFINITION. The four operations of the signed normalized codec with zero
(spec/42_signed_with_zero.md R140 to R143). -/

namespace Sys2Proof.Machine

/-- `QSZ.S W, value` (R140). -/
def execQszS (w : Nat) (operand : PortWord) (s : State) : Host.Outcome State Fault Refusal :=
  .next (deliver (encodeOp Config.params .sz .s w operand) s)

/-- `QSZ.D W, value` (R141). -/
def execQszD (w : Nat) (operand : PortWord) (s : State) : Host.Outcome State Fault Refusal :=
  .next (deliver (encodeOp Config.params .sz .d w operand) s)

/-- `DQSZ.S W, code` (R142). -/
def execDqszS (w : Nat) (operand : PortWord) (s : State) : Host.Outcome State Fault Refusal :=
  .next (deliver (decodeOp Config.params .sz .s w operand) s)

/-- `DQSZ.D W, code` (R143). -/
def execDqszD (w : Nat) (operand : PortWord) (s : State) : Host.Outcome State Fault Refusal :=
  .next (deliver (decodeOp Config.params .sz .d w operand) s)

end Sys2Proof.Machine
end

