-- ==== Sys2Proof/Machine/SignedWithoutZero.lean ====
section
/-! DEFINITION. The four operations of the signed normalized codec without zero
(spec/43_signed_without_zero.md R160 to R163). -/

namespace Sys2Proof.Machine

/-- `QSN.S W, value` (R160). -/
def execQsnS (w : Nat) (operand : PortWord) (s : State) : Host.Outcome State Fault Refusal :=
  .next (deliver (encodeOp Config.params .sn .s w operand) s)

/-- `QSN.D W, value` (R161). -/
def execQsnD (w : Nat) (operand : PortWord) (s : State) : Host.Outcome State Fault Refusal :=
  .next (deliver (encodeOp Config.params .sn .d w operand) s)

/-- `DQSN.S W, code` (R162). -/
def execDqsnS (w : Nat) (operand : PortWord) (s : State) : Host.Outcome State Fault Refusal :=
  .next (deliver (decodeOp Config.params .sn .s w operand) s)

/-- `DQSN.D W, code` (R163). -/
def execDqsnD (w : Nat) (operand : PortWord) (s : State) : Host.Outcome State Fault Refusal :=
  .next (deliver (decodeOp Config.params .sn .d w operand) s)

end Sys2Proof.Machine
end

