-- ==== Sys2Proof/Machine/Unsigned.lean ====
section
/-! DEFINITION. The four operations of the unsigned normalized codec (spec/41_unsigned.md R120 to R123). -/

namespace Sys2Proof.Machine

/-- `QU.S W, value` (R120). -/
def execQuS (w : Nat) (operand : PortWord) (s : State) : Host.Outcome State Fault Refusal :=
  .next (deliver (encodeOp Config.params .u .s w operand) s)

/-- `QU.D W, value` (R121). -/
def execQuD (w : Nat) (operand : PortWord) (s : State) : Host.Outcome State Fault Refusal :=
  .next (deliver (encodeOp Config.params .u .d w operand) s)

/-- `DQU.S W, code` (R122). -/
def execDquS (w : Nat) (operand : PortWord) (s : State) : Host.Outcome State Fault Refusal :=
  .next (deliver (decodeOp Config.params .u .s w operand) s)

/-- `DQU.D W, code` (R123). -/
def execDquD (w : Nat) (operand : PortWord) (s : State) : Host.Outcome State Fault Refusal :=
  .next (deliver (decodeOp Config.params .u .d w operand) s)

end Sys2Proof.Machine
end

