-- ==== Sys2Proof/Machine/Dispatch.lean ====
section
/-! DEFINITION. One arm per operation (spec/30_encoding.md R66). -/

namespace Sys2Proof.Machine

def exec (i : Instr) (s : State) : Host.Outcome State Fault Refusal :=
  match i with
  | .quS w operand => Sys2Proof.Machine.execQuS w operand s
  | .qszS w operand => Sys2Proof.Machine.execQszS w operand s
  | .qsnS w operand => Sys2Proof.Machine.execQsnS w operand s
  | .dquS w operand => Sys2Proof.Machine.execDquS w operand s
  | .dqszS w operand => Sys2Proof.Machine.execDqszS w operand s
  | .dqsnS w operand => Sys2Proof.Machine.execDqsnS w operand s
  | .quD w operand => Sys2Proof.Machine.execQuD w operand s
  | .qszD w operand => Sys2Proof.Machine.execQszD w operand s
  | .qsnD w operand => Sys2Proof.Machine.execQsnD w operand s
  | .dquD w operand => Sys2Proof.Machine.execDquD w operand s
  | .dqszD w operand => Sys2Proof.Machine.execDqszD w operand s
  | .dqsnD w operand => Sys2Proof.Machine.execDqsnD w operand s

end Sys2Proof.Machine
end

