-- ==== Sys2Proof/Machine/Step.lean ====
section
/-! DEFINITION. One step answers one request ("A model is untimed: one request, one response, one step",
spec/70_reset_and_hazards.md R245). -/

namespace Sys2Proof.Machine

/-- Take the oldest waiting request and answer it; with none waiting the block waits, and the state
stays (R240; log entry 3). A command that decodes to no operation gets `ILLEGAL_COMMAND` (R213). -/
def step (s : State) : Host.Outcome State Fault Refusal :=
  match fetch s with
  | none => .next s
  | some (r, s') =>
    match decode r with
    | .error _ => .next (raise .illegalCommand s')
    | .ok i => exec i s'

/-- `s` with the request of the given table bits presented as the next one (log entry 2). -/
def State.withFetchWord (s : State) (nbits w : Nat) : State :=
  { s with requests := requestOfBits nbits w :: s.requests }

end Sys2Proof.Machine
end

