-- ==== Sys2Proof/Machine/Skeleton.lean ====
section
/-! DEFINITION. The one function every request executes, spec/40_primitive.md R108, transcribed from the
raw bits of `CMD` line by line. The step does not call it (it decodes, then runs one meaning per
operation): it is the yardstick the statements hold the step against. -/

namespace Sys2Proof.Machine

/-- `exec(CMD, OPERAND)` of R108, for any parameters. -/
def transact (p : Params) (r : Request) : Response :=
  -- 1. decode (R71)
  if r.cmd.extractLsb 15 11 ≠ 0#5 ∨ r.cmd.extractLsb 1 0 = 3#2 then .fault .illegalCommand
  else
    let codec : Codec :=
      if r.cmd.extractLsb 1 0 = 0#2 then .u else if r.cmd.extractLsb 1 0 = 1#2 then .sz else .sn
    let F : Fmt := if r.cmd.getLsbD 3 then .d else .s
    let w : Nat := (r.cmd.extractLsb 10 4).toNat
    -- 2. width check (R214)
    let wlimit : Nat := if codec = .u then p.wmaxU else p.wmaxS
    if w < 2 ∨ wlimit < w then .fault .widthRange
    else if r.cmd.getLsbD 2 = false then
      -- 3a. encode
      let x := floatOperand F r.operand
      match fclass F x with
      | .nan => .fault .operandNan
      | .posInf => .ok (BitVec.ofInt 64 (hi codec w))
      | .negInf => .ok (BitVec.ofInt 64 (lo codec w))
      | .finite =>
        .ok (BitVec.ofInt 64 (clamp (rnd p.tie (scale codec w (fval F x))) (lo codec w) (hi codec w)))
    else
      -- 3b. decode
      let n : ℤ := if codec = .u then (r.operand.toNat : ℤ) else r.operand.toInt
      if n < lo codec w ∨ hi codec w < n then .fault .codeRange
      else .ok (floatResult F (roundF F (unscale codec w n)))

end Sys2Proof.Machine
end

