-- ==== Sys2Proof/Safety.lean ====
section
/-! DEFINITION. The terms the statements are written in: what it is for a request or an instruction to
get a response, the order of float operands, the codecs' domains, and the invariant of a run that
answers every request in order. A safe run of this block is one in which each step answers a next state:
the spec knows no other (spec/60_exceptions.md R211, R221). -/

namespace Sys2Proof.Machine

/-- Whatever waits behind it and whatever was answered before, request `r` at the front is answered by
`resp` in one step, and nothing else changes (spec/10_state.md R20, R22; spec/20_memory.md R46). -/
def Responds (r : Request) (resp : Response) : Prop :=
  ∀ (s : State) (rest : List Request), s.requests = r :: rest →
    step s = .next { requests := rest, responses := s.responses ++ [resp] }

/-- In every state, instruction `i` answers `resp` and changes nothing else. -/
def Answers (i : Instr) (resp : Response) : Prop :=
  ∀ s : State, exec i s = .next { s with responses := s.responses ++ [resp] }

/-- The encode operation of a codec and a format (R66). -/
abbrev enc (c : Codec) (F : Fmt) (w : Nat) (v : PortWord) : Instr := .ofFields c .encode F w v

/-- The decode operation of a codec and a format (R66). -/
abbrev dec (c : Codec) (F : Fmt) (w : Nat) (v : PortWord) : Instr := .ofFields c .decode F w v

/-- The requests `all`, of which the answered ones stand before the waiting ones, each answered by
R108's response in the order of the requests (R46). -/
def AnswersInOrder (all : List Request) (s : State) : Prop :=
  ∃ answered, all = answered ++ s.requests ∧
    s.responses = answered.map (transact Config.params)

/-- The command decodes to an operation: neither cause of R213. -/
abbrev LegalCommand (cmd : CmdWord) : Prop :=
  cmd.extractLsb 15 11 = 0#5 ∧ cmd.extractLsb 1 0 ≠ 3#2

/-- The width in the command is in the range of the command's codec (R214): `[2, 32]` for `U`,
`[2, 64]` for `SZ` and `SN`. -/
abbrev WidthInRange (cmd : CmdWord) : Prop :=
  2 ≤ (cmd.extractLsb 10 4).toNat ∧
    (cmd.extractLsb 10 4).toNat ≤ (if cmd.extractLsb 1 0 = 0#2 then 32 else 64)

/-- The pattern of `1.0` on the port (R95). -/
def onePattern (F : Fmt) : PortWord :=
  match F with
  | .s => 0x3F800000#64
  | .d => 0x3FF0000000000000#64

/-- The pattern of `-1.0` on the port (R95). -/
def negOnePattern (F : Fmt) : PortWord :=
  match F with
  | .s => 0xBF800000#64
  | .d => 0xBFF0000000000000#64

/-- The sign bit of a format on the port (R95); alone it is the pattern of `-0.0`. -/
def signBit (F : Fmt) : PortWord :=
  match F with
  | .s => 0x80000000#64
  | .d => 0x8000000000000000#64

/-- A finite float of a format on the port. -/
abbrev FiniteOn (F : Fmt) (v : PortWord) : Prop := fclass F (floatOperand F v) = .finite

/-- The exact value on the port, for a finite pattern. -/
abbrev valueOn (F : Fmt) (v : PortWord) : ℚ := fval F (floatOperand F v)

/-- The order of R184 on two operands that are no NaN: `-inf` below and `+inf` above every finite
value, finite values by value, so that the two zeros are equal. False when either is a NaN. -/
def OperandLe (F : Fmt) (v₁ v₂ : PortWord) : Prop :=
  match fclass F (floatOperand F v₁), fclass F (floatOperand F v₂) with
  | .nan, _ => False
  | _, .nan => False
  | .negInf, _ => True
  | _, .posInf => True
  | .finite, .finite => valueOn F v₁ ≤ valueOn F v₂
  | _, _ => False

/-- The domain on which a codec is guaranteed correct (spec/10_state.md R30). -/
def InDomain (c : Codec) (f : ℚ) : Prop :=
  match c with
  | .u => 0 ≤ f ∧ f ≤ 1
  | .sz | .sn => -1 ≤ f ∧ f ≤ 1

/-- `x` lies halfway between two integers (R98). -/
def IsTie (x : ℚ) : Prop := x - ⌊x⌋ = 1 / 2

/-- `1/(2^K - 1)`-style bound of R187 on the returned float: one step of the codec. -/
def oneStep (c : Codec) (w : Nat) : ℚ :=
  match c with
  | .u => 1 / (2 ^ w - 1)
  | .sz => 1 / (2 ^ (w - 1) - 1)
  | .sn => 2 / (2 ^ w - 1)

/-- The greatest width at which R193 (a) gives the code round trip for every code. -/
def roundTripWidth (F : Fmt) (c : Codec) : Nat :=
  match F, c with
  | .s, .u => 24
  | .s, _ => 25
  | .d, .u => 32
  | .d, _ => 54

end Sys2Proof.Machine
end

