-- ==== Sys2Proof/Certificates/Slice0/Obligations.lean ====
section
/-! DEFINITION. The statements for the provers, about spec/ rule by rule. `Responds` and `Answers` are the
machine's own step and exec (Safety.lean); statements over `Params` hold for either tie rule and every
legal pair of width limits, as the rules do (spec/00_scope.md R7, R9). -/

open Sys2Proof Sys2Proof.Machine

/-! ### Encoding (spec/30_encoding.md) -/

/-- One word of each row of the opcode table at W = 8, written out bit by bit (R61, R66), and the ends of
the width field. -/
def Obligations.OpcodeTableWordsDecode : Prop :=
  ∀ v : PortWord,
    decode ⟨0b0000000010000000#16, v⟩ = .ok (.quS 8 v) ∧
    decode ⟨0b0000000010000001#16, v⟩ = .ok (.qszS 8 v) ∧
    decode ⟨0b0000000010000010#16, v⟩ = .ok (.qsnS 8 v) ∧
    decode ⟨0b0000000010000100#16, v⟩ = .ok (.dquS 8 v) ∧
    decode ⟨0b0000000010000101#16, v⟩ = .ok (.dqszS 8 v) ∧
    decode ⟨0b0000000010000110#16, v⟩ = .ok (.dqsnS 8 v) ∧
    decode ⟨0b0000000010001000#16, v⟩ = .ok (.quD 8 v) ∧
    decode ⟨0b0000000010001001#16, v⟩ = .ok (.qszD 8 v) ∧
    decode ⟨0b0000000010001010#16, v⟩ = .ok (.qsnD 8 v) ∧
    decode ⟨0b0000000010001100#16, v⟩ = .ok (.dquD 8 v) ∧
    decode ⟨0b0000000010001101#16, v⟩ = .ok (.dqszD 8 v) ∧
    decode ⟨0b0000000010001110#16, v⟩ = .ok (.dqsnD 8 v) ∧
    decode ⟨0b0000010000000001#16, v⟩ = .ok (.qszS 64 v) ∧
    decode ⟨0b0000000000001000#16, v⟩ = .ok (.quD 0 v) ∧
    decode ⟨0b0000011111110010#16, v⟩ = .ok (.qsnS 127 v)

/-- Decoding the encoding of any well-formed instruction gives it back: no bit of a command or an operand
is dropped (R61, R64, R66, R71). -/
def Obligations.EncodedInstructionDecodesBack : Prop :=
  ∀ i : Instr, i.WellFormed → decode (encode i) = .ok i

/-- Every word that decodes is the encoding of what it decodes to: each operation with each width has
one command word (R66, R71). -/
def Obligations.DecodedRequestEncodesBack : Prop :=
  ∀ (r : Request) (i : Instr), decode r = .ok i → i.WellFormed ∧ encode i = r

/-- R71: every command word decodes either to "illegal" or to one operation with W in 0 to 127, whose
fields are those of the word. -/
def Obligations.DecodingIsTotal : Prop :=
  ∀ r : Request,
    ((r.cmd.extractLsb 15 11 ≠ 0#5 ∨ r.cmd.extractLsb 1 0 = 3#2) ∧ ∃ e, decode r = .error e) ∨
    (r.cmd.extractLsb 15 11 = 0#5 ∧ r.cmd.extractLsb 1 0 ≠ 3#2 ∧
      ∃ i, decode r = .ok i ∧
        i.codec = (if r.cmd.extractLsb 1 0 = 0#2 then .u
          else if r.cmd.extractLsb 1 0 = 1#2 then .sz else .sn) ∧
        i.dir = (if r.cmd.getLsbD 2 then .decode else .encode) ∧
        i.fmt = (if r.cmd.getLsbD 3 then .d else .s) ∧
        i.width = (r.cmd.extractLsb 10 4).toNat ∧ i.width ≤ 127 ∧ i.operand = r.operand)

/-- R66: an operation is selected by `(CMD & 0xF80F) == match`, each operation by its own match and no
other; `CMD = (W << 4) | OPC`; the opcodes 0x3, 0x7, 0xB, 0xF select nothing. -/
def Obligations.OpcodeMatchSelectsOperation : Prop :=
  (∀ r : Request,
    (r.cmd &&& 0xF80F#16 = 0x0000#16 ↔ ∃ w, decode r = .ok (.quS w r.operand)) ∧
    (r.cmd &&& 0xF80F#16 = 0x0001#16 ↔ ∃ w, decode r = .ok (.qszS w r.operand)) ∧
    (r.cmd &&& 0xF80F#16 = 0x0002#16 ↔ ∃ w, decode r = .ok (.qsnS w r.operand)) ∧
    (r.cmd &&& 0xF80F#16 = 0x0004#16 ↔ ∃ w, decode r = .ok (.dquS w r.operand)) ∧
    (r.cmd &&& 0xF80F#16 = 0x0005#16 ↔ ∃ w, decode r = .ok (.dqszS w r.operand)) ∧
    (r.cmd &&& 0xF80F#16 = 0x0006#16 ↔ ∃ w, decode r = .ok (.dqsnS w r.operand)) ∧
    (r.cmd &&& 0xF80F#16 = 0x0008#16 ↔ ∃ w, decode r = .ok (.quD w r.operand)) ∧
    (r.cmd &&& 0xF80F#16 = 0x0009#16 ↔ ∃ w, decode r = .ok (.qszD w r.operand)) ∧
    (r.cmd &&& 0xF80F#16 = 0x000A#16 ↔ ∃ w, decode r = .ok (.qsnD w r.operand)) ∧
    (r.cmd &&& 0xF80F#16 = 0x000C#16 ↔ ∃ w, decode r = .ok (.dquD w r.operand)) ∧
    (r.cmd &&& 0xF80F#16 = 0x000D#16 ↔ ∃ w, decode r = .ok (.dqszD w r.operand)) ∧
    (r.cmd &&& 0xF80F#16 = 0x000E#16 ↔ ∃ w, decode r = .ok (.dqsnD w r.operand)) ∧
    (r.cmd.extractLsb 3 0 ∈ [0x3#4, 0x7#4, 0xB#4, 0xF#4] → ∃ e, decode r = .error e)) ∧
  ∀ i : Instr, i.WellFormed →
    (encode i).cmd = (BitVec.ofNat 16 i.width <<< 4) ||| i.opc.setWidth 16

/-! ### The step, the run and the frame -/

/-- A step takes the oldest waiting request out of the list and runs the instruction it decodes to, in the
state with the rest of the list. -/
def Obligations.StepRunsDecodedInstruction : Prop :=
  ∀ (s : State) (r : Request) (rest : List Request) (i : Instr),
    s.requests = r :: rest → decode r = .ok i → step s = exec i { s with requests := rest }

/-- An instruction placed by `withFetchWord` is the one the very next step runs, in the state it was
placed on (the model's convention, log entry 2). -/
def Obligations.PlacedWordRunsNext : Prop :=
  ∀ (s : State) (nbits w : Nat) (i : Instr),
    decodeTableWord nbits w = some i → step (s.withFetchWord nbits w) = exec i s

/-- R108: every request is answered by the one function of R108, in one step, from every state, and
nothing else changes. -/
def Obligations.EveryRequestAnsweredByTheSkeleton : Prop :=
  ∀ r : Request, Responds r (transact Config.params r)

/-- The response of an instruction does not depend on the state, and delivering it is all the instruction
does: the waiting requests and the earlier responses stay (the frame of all twelve operations). -/
def Obligations.InstructionAnswersAlikeInEveryState : Prop :=
  ∀ i : Instr, ∃! resp : Response, Answers i resp

/-- A run over any list of requests answers each exactly once, in order, by R108's function of that
request alone, and leaves none waiting (R24, R46). -/
def Obligations.RunAnswersRequestsInOrder : Prop :=
  ∀ (requests : List Request) (earlier : List Response),
    Sys2Proof.core.run requests.length (State.mk requests earlier) =
      .next (State.mk [] (earlier ++ requests.map (transact Config.params)))

/-- Every step keeps the invariant that the answered requests have R108's responses, in order (R46). -/
def Obligations.StepKeepsAnswersInOrder : Prop :=
  ∀ (all : List Request) (s t : State),
    AnswersInOrder all s → step s = .next t → AnswersInOrder all t

/-- The invariant holds after reset, with any list of requests presented. -/
def Obligations.AnswersInOrderAfterReset : Prop :=
  ∀ requests : List Request, AnswersInOrder requests { State.reset with requests := requests }

/-- With no request waiting the block waits: the state stays (the model's reading of R240, log
entry 3). -/
def Obligations.BlockWaitsWithoutRequest : Prop :=
  ∀ s : State, s.requests = [] → step s = .next s

/-- After reset nothing waits and nothing was answered (the model's fields, log entry 1), and the first
request after reset is answered like any other (R240). -/
def Obligations.FirstRequestAfterReset : Prop :=
  State.reset.requests = [] ∧ State.reset.responses = [] ∧
  ∀ r : Request, step { State.reset with requests := [r] } =
    .next { requests := [], responses := [transact Config.params r] }

/-! ### Faults (spec/60_exceptions.md) -/

/-- R213, with R67 and R68: `ILLEGAL_COMMAND` exactly when a reserved bit is set or the codec is 3,
whatever the operand and the other fields. -/
def Obligations.IllegalCommandResponse : Prop :=
  ∀ r : Request, Responds r (.fault .illegalCommand) ↔
    (r.cmd.extractLsb 15 11 ≠ 0#5 ∨ r.cmd.extractLsb 1 0 = 3#2)

/-- R214: `WIDTH_RANGE`, for any of the twelve operations, exactly when W is 0 or 1, above 32 for codec
`U`, above 64 for `SZ` and `SN`, whatever the operand. -/
def Obligations.WidthRangeResponse : Prop :=
  ∀ r : Request, Responds r (.fault .widthRange) ↔
    LegalCommand r.cmd ∧
    ((r.cmd.extractLsb 10 4).toNat < 2 ∨
      (r.cmd.extractLsb 1 0 = 0#2 ∧ 32 < (r.cmd.extractLsb 10 4).toNat) ∨
      (r.cmd.extractLsb 1 0 ≠ 0#2 ∧ 64 < (r.cmd.extractLsb 10 4).toNat))

/-- R215: `OPERAND_NAN`, for an encode that passes the command and width checks, exactly when the exponent
field is all ones and the fraction is not zero; for `.S` in the low half of the operand only. -/
def Obligations.OperandNanResponse : Prop :=
  ∀ r : Request, Responds r (.fault .operandNan) ↔
    LegalCommand r.cmd ∧ WidthInRange r.cmd ∧ r.cmd.getLsbD 2 = false ∧
    (if r.cmd.getLsbD 3 then
      r.operand.extractLsb 62 52 = BitVec.allOnes 11 ∧ r.operand.extractLsb 51 0 ≠ 0#52
    else r.operand.extractLsb 30 23 = BitVec.allOnes 8 ∧ r.operand.extractLsb 22 0 ≠ 0#23)

/-- R216: `CODE_RANGE`, for a decode that passes the command and width checks, exactly when the operand is
no widened code, in both of the rule's wordings: by the integer, and by the bits; never at W = 64. -/
def Obligations.CodeRangeResponse : Prop :=
  (∀ r : Request, Responds r (.fault .codeRange) ↔
    LegalCommand r.cmd ∧ WidthInRange r.cmd ∧ r.cmd.getLsbD 2 = true ∧
    (if r.cmd.extractLsb 1 0 = 0#2 then 2 ^ (r.cmd.extractLsb 10 4).toNat - 1 < r.operand.toNat
    else r.operand.toInt < -(2 ^ ((r.cmd.extractLsb 10 4).toNat - 1)) ∨
      2 ^ ((r.cmd.extractLsb 10 4).toNat - 1) - 1 < r.operand.toInt)) ∧
  (∀ (w : Nat) (v : PortWord), 2 ≤ w → w ≤ 64 →
    (2 ^ w - 1 < v.toNat ↔ ∃ j, w ≤ j ∧ j < 64 ∧ v.getLsbD j = true) ∧
    ((v.toInt < -(2 ^ (w - 1)) ∨ 2 ^ (w - 1) - 1 < v.toInt) ↔
      ∃ j k, w - 1 ≤ j ∧ j < 64 ∧ w - 1 ≤ k ∧ k < 64 ∧ v.getLsbD j ≠ v.getLsbD k)) ∧
  ∀ v : PortWord, ¬ (v.toInt < -(2 ^ 63) ∨ 2 ^ 63 - 1 < v.toInt)

/-- R219 and R217: the order of the checks, the rule's five examples, and that a request with none of the
four causes is `OK`. -/
def Obligations.FaultPriority : Prop :=
  (∀ r : Request,
    (¬ LegalCommand r.cmd → Responds r (.fault .illegalCommand)) ∧
    (LegalCommand r.cmd → ¬ WidthInRange r.cmd → Responds r (.fault .widthRange)) ∧
    (LegalCommand r.cmd → WidthInRange r.cmd → ∀ i, decode r = .ok i →
      (i.dir = .encode →
        (fclass i.fmt (floatOperand i.fmt r.operand) = .nan → Responds r (.fault .operandNan)) ∧
        (fclass i.fmt (floatOperand i.fmt r.operand) ≠ .nan → ∃ x, Responds r (.ok x))) ∧
      (i.dir = .decode →
        (¬ IsCode i.codec i.width (readCode i.codec r.operand) → Responds r (.fault .codeRange)) ∧
        (IsCode i.codec i.width (readCode i.codec r.operand) → ∃ x, Responds r (.ok x))))) ∧
  (∀ v : PortWord, Responds ⟨0x0803#16, v⟩ (.fault .illegalCommand)) ∧
  (∀ v : PortWord, Responds ⟨0x0013#16, v⟩ (.fault .illegalCommand)) ∧
  Answers (.quD 33 0x7FF8000000000000#64) (.fault .widthRange) ∧
  Answers (.dquS 1 7#64) (.fault .widthRange) ∧
  Answers (.quD 8 0x7FF8000000000000#64) (.fault .operandNan)

/-- R211, R221, R222: a fault leaves no trace: after a request that R108 faults, the next request gets the
response R108 gives it alone, the two responses stand in order, and nothing else changes. -/
def Obligations.FaultLeavesNoTrace : Prop :=
  ∀ (r₁ r₂ : Request) (f : Fault) (s : State) (rest : List Request),
    transact Config.params r₁ = .fault f → s.requests = r₁ :: r₂ :: rest →
    Sys2Proof.core.run 2 s =
      .next (State.mk rest (s.responses ++ [.fault f, transact Config.params r₂]))

/-- R212: the status codes; 5, 6 and 7 are never produced; a response has a result exactly when its
status is 0. -/
def Obligations.StatusCodes : Prop :=
  Fault.illegalCommand.status = 1#3 ∧ Fault.widthRange.status = 2#3 ∧
  Fault.operandNan.status = 3#3 ∧ Fault.codeRange.status = 4#3 ∧
  ∀ resp : Response, resp.status.toNat ≤ 4 ∧
    (resp.status = 0#3 ↔ ∃ x, resp = .ok x) ∧ (resp.status = 0#3 ↔ resp.result ≠ none)

/-! ### What each operation answers, and when it completes -/

/-- R120, R121: `QU.S` and `QU.D`. -/
def Obligations.UnsignedEncodeResult : Prop :=
  (∀ (w : Nat) (v : PortWord) (s : State), 2 ≤ w → w ≤ 32 → fclass .s (floatOperand .s v) ≠ .nan →
    exec (.quS w v) s = .next { s with responses := s.responses ++ [.ok (BitVec.ofInt 64
      (match fclass .s (floatOperand .s v) with
      | .posInf => 2 ^ w - 1
      | .negInf => 0
      | _ => clamp (rndAway (fval .s (floatOperand .s v) * (2 ^ w - 1))) 0 (2 ^ w - 1)))] }) ∧
  (∀ (w : Nat) (v : PortWord) (s : State), 2 ≤ w → w ≤ 32 → fclass .d (floatOperand .d v) ≠ .nan →
    exec (.quD w v) s = .next { s with responses := s.responses ++ [.ok (BitVec.ofInt 64
      (match fclass .d (floatOperand .d v) with
      | .posInf => 2 ^ w - 1
      | .negInf => 0
      | _ => clamp (rndAway (fval .d (floatOperand .d v) * (2 ^ w - 1))) 0 (2 ^ w - 1)))] })

/-- R140, R141: `QSZ.S` and `QSZ.D`. -/
def Obligations.SignedWithZeroEncodeResult : Prop :=
  (∀ (w : Nat) (v : PortWord) (s : State), 2 ≤ w → w ≤ 64 → fclass .s (floatOperand .s v) ≠ .nan →
    exec (.qszS w v) s = .next { s with responses := s.responses ++ [.ok (BitVec.ofInt 64
      (match fclass .s (floatOperand .s v) with
      | .posInf => 2 ^ (w - 1) - 1
      | .negInf => -(2 ^ (w - 1))
      | _ => clamp (rndAway (fval .s (floatOperand .s v) * (2 ^ (w - 1) - 1)))
          (-(2 ^ (w - 1))) (2 ^ (w - 1) - 1)))] }) ∧
  (∀ (w : Nat) (v : PortWord) (s : State), 2 ≤ w → w ≤ 64 → fclass .d (floatOperand .d v) ≠ .nan →
    exec (.qszD w v) s = .next { s with responses := s.responses ++ [.ok (BitVec.ofInt 64
      (match fclass .d (floatOperand .d v) with
      | .posInf => 2 ^ (w - 1) - 1
      | .negInf => -(2 ^ (w - 1))
      | _ => clamp (rndAway (fval .d (floatOperand .d v) * (2 ^ (w - 1) - 1)))
          (-(2 ^ (w - 1))) (2 ^ (w - 1) - 1)))] })

/-- R160, R161: `QSN.S` and `QSN.D`. -/
def Obligations.SignedWithoutZeroEncodeResult : Prop :=
  (∀ (w : Nat) (v : PortWord) (s : State), 2 ≤ w → w ≤ 64 → fclass .s (floatOperand .s v) ≠ .nan →
    exec (.qsnS w v) s = .next { s with responses := s.responses ++ [.ok (BitVec.ofInt 64
      (match fclass .s (floatOperand .s v) with
      | .posInf => 2 ^ (w - 1) - 1
      | .negInf => -(2 ^ (w - 1))
      | _ => clamp (rndAway ((fval .s (floatOperand .s v) * (2 ^ w - 1) - 1) / 2))
          (-(2 ^ (w - 1))) (2 ^ (w - 1) - 1)))] }) ∧
  (∀ (w : Nat) (v : PortWord) (s : State), 2 ≤ w → w ≤ 64 → fclass .d (floatOperand .d v) ≠ .nan →
    exec (.qsnD w v) s = .next { s with responses := s.responses ++ [.ok (BitVec.ofInt 64
      (match fclass .d (floatOperand .d v) with
      | .posInf => 2 ^ (w - 1) - 1
      | .negInf => -(2 ^ (w - 1))
      | _ => clamp (rndAway ((fval .d (floatOperand .d v) * (2 ^ w - 1) - 1) / 2))
          (-(2 ^ (w - 1))) (2 ^ (w - 1) - 1)))] })

/-- R122, R123: `DQU.S` and `DQU.D`. -/
def Obligations.UnsignedDecodeResult : Prop :=
  (∀ (w : Nat) (v : PortWord) (s : State), 2 ≤ w → w ≤ 32 → v.toNat ≤ 2 ^ w - 1 →
    exec (.dquS w v) s = .next { s with responses := s.responses ++
      [.ok ((packS (roundF .s ((v.toNat : ℚ) / (2 ^ w - 1)))).setWidth 64)] }) ∧
  (∀ (w : Nat) (v : PortWord) (s : State), 2 ≤ w → w ≤ 32 → v.toNat ≤ 2 ^ w - 1 →
    exec (.dquD w v) s = .next { s with responses := s.responses ++
      [.ok (packD (roundF .d ((v.toNat : ℚ) / (2 ^ w - 1))))] })

/-- R142, R143: `DQSZ.S` and `DQSZ.D`. -/
def Obligations.SignedWithZeroDecodeResult : Prop :=
  (∀ (w : Nat) (v : PortWord) (s : State), 2 ≤ w → w ≤ 64 →
    -(2 ^ (w - 1)) ≤ v.toInt → v.toInt ≤ 2 ^ (w - 1) - 1 →
    exec (.dqszS w v) s = .next { s with responses := s.responses ++
      [.ok ((packS (roundF .s (max ((v.toInt : ℚ) / (2 ^ (w - 1) - 1)) (-1)))).setWidth 64)] }) ∧
  (∀ (w : Nat) (v : PortWord) (s : State), 2 ≤ w → w ≤ 64 →
    -(2 ^ (w - 1)) ≤ v.toInt → v.toInt ≤ 2 ^ (w - 1) - 1 →
    exec (.dqszD w v) s = .next { s with responses := s.responses ++
      [.ok (packD (roundF .d (max ((v.toInt : ℚ) / (2 ^ (w - 1) - 1)) (-1))))] })

/-- R162, R163: `DQSN.S` and `DQSN.D`. -/
def Obligations.SignedWithoutZeroDecodeResult : Prop :=
  (∀ (w : Nat) (v : PortWord) (s : State), 2 ≤ w → w ≤ 64 →
    -(2 ^ (w - 1)) ≤ v.toInt → v.toInt ≤ 2 ^ (w - 1) - 1 →
    exec (.dqsnS w v) s = .next { s with responses := s.responses ++
      [.ok ((packS (roundF .s ((2 * (v.toInt : ℚ) + 1) / (2 ^ w - 1)))).setWidth 64)] }) ∧
  (∀ (w : Nat) (v : PortWord) (s : State), 2 ≤ w → w ≤ 64 →
    -(2 ^ (w - 1)) ≤ v.toInt → v.toInt ≤ 2 ^ (w - 1) - 1 →
    exec (.dqsnD w v) s = .next { s with responses := s.responses ++
      [.ok (packD (roundF .d ((2 * (v.toInt : ℚ) + 1) / (2 ^ w - 1))))] })

/-- R65: how an `OK` result lies on the port: a code zero- or sign-extended and valid as the operand of
the same codec's decode; a binary32 result in the low half with the upper half zero; a binary64 result
whole. -/
def Obligations.ResultPlacement : Prop :=
  (∀ (c : Codec) (F : Fmt) (w : Nat) (v x : PortWord), Answers (enc c F w v) (.ok x) →
    IsCode c w (readCode c x) ∧ x = widen (readCode c x) ∧
    (c = .u → ∀ j, w ≤ j → x.getLsbD j = false) ∧
    (c ≠ .u → ∀ j, w - 1 ≤ j → j < 64 → x.getLsbD j = x.getLsbD 63)) ∧
  (∀ (c : Codec) (w : Nat) (v x : PortWord), Answers (dec c .s w v) (.ok x) →
    x.extractLsb 63 32 = 0#32 ∧
    x.extractLsb 31 0 = packS (roundF .s (unscale c w (readCode c v)))) ∧
  (∀ (c : Codec) (w : Nat) (v x : PortWord), Answers (dec c .d w v) (.ok x) →
    x = packD (roundF .d (unscale c w (readCode c v))))

/-- R109: what follows at once from R108, over the raw command bits and for all legal parameters. -/
def Obligations.SkeletonProperties : Prop :=
  ∀ p : Params, p.Legal → ∀ r : Request,
    (r.cmd.getLsbD 3 = false → r.cmd.getLsbD 2 = false → ∀ v : PortWord,
      v.extractLsb 31 0 = r.operand.extractLsb 31 0 → transact p { r with operand := v } = transact p r) ∧
    (transact p r).status.toNat ≤ 4 ∧
    (r.cmd.getLsbD 2 = false → ∀ x, transact p r = .ok x →
      ∃ y, transact p ⟨r.cmd ||| 0x0004#16, x⟩ = .ok y) ∧
    (r.cmd.getLsbD 2 = true → ∀ y, transact p r = .ok y →
      let F : Fmt := if r.cmd.getLsbD 3 then .d else .s
      FiniteOn F y ∧ -1 ≤ valueOn F y ∧ valueOn F y ≤ 1 ∧
        (r.cmd.extractLsb 1 0 = 0#2 → 0 ≤ valueOn F y))

/-! ### The rounding primitive and rounding to a float (spec/40_primitive.md) -/

/-- R97: the rounding of this hardware is half away from zero, odd, non-decreasing and within one half;
the alternative rounds to the nearest integer, a tie to the even one; with the rule's examples. -/
def Obligations.RoundingPrimitive : Prop :=
  Config.params.tie = .away ∧ (∀ x, rnd .away x = rndAway x) ∧ (∀ x, rnd .even x = rndEven x) ∧
  (∀ x, 0 ≤ x → rndAway x = ⌊x + 1 / 2⌋) ∧ (∀ x, x < 0 → rndAway x = -⌊-x + 1 / 2⌋) ∧
  rndAway (5 / 2) = 3 ∧ rndAway (-5 / 2) = -3 ∧ rndAway (1 / 2) = 1 ∧ rndAway (-1 / 2) = -1 ∧
  rndAway (24999 / 10000) = 2 ∧ rndAway (-4 / 10) = 0 ∧ (∀ n : ℤ, rndAway n = n) ∧
  (∀ x, rndAway (-x) = -rndAway x) ∧ (∀ x y, x ≤ y → rndAway x ≤ rndAway y) ∧
  (∀ x, |(rndAway x : ℚ) - x| ≤ 1 / 2) ∧
  (∀ (x : ℚ) (n : ℤ), |(rndEven x : ℚ) - x| ≤ |(n : ℚ) - x|) ∧
  (∀ (x : ℚ) (n : ℤ), n ≠ rndEven x → |(n : ℚ) - x| = |(rndEven x : ℚ) - x| → rndEven x % 2 = 0) ∧
  rndEven (5 / 2) = 2 ∧ rndEven (-1 / 2) = 0 ∧ rndEven (1 / 2) = 0 ∧ rndEven (3 / 2) = 2

/-- R98: an encode's scaled value is a tie exactly at the inputs of the rule's table, and the two tie rules
give different codes only for a zero of `SN` and for plus or minus one half of `SZ` at W = 2, with the
codes the table gives. -/
def Obligations.TieRuleMattersOnlyAtListedInputs : Prop :=
  ∀ (c : Codec) (F : Fmt) (w : Nat) (x : FloatFields) (p : Params), 2 ≤ w → fclass F x = .finite →
    let away := quantize { p with tie := .away } c F w x
    let even := quantize { p with tie := .even } c F w x
    let f := fval F x
    (c ≠ .sn → (IsTie (scale c w f) ↔ ∃ k : ℤ, k % 2 = 1 ∧ f = k / 2)) ∧
    (c = .sn → (IsTie (scale c w f) ↔ ∃ k : ℤ, f = 2 * k)) ∧
    (away ≠ even ↔ (c = .sn ∧ f = 0) ∨ (c = .sz ∧ w = 2 ∧ (f = 1 / 2 ∨ f = -1 / 2))) ∧
    (c = .sn → f = 0 → away = some (-1) ∧ even = some 0) ∧
    (c = .sz → w = 2 → f = 1 / 2 → away = some 1 ∧ even = some 0) ∧
    (c = .sz → w = 2 → f = -1 / 2 → away = some (-1) ∧ even = some 0) ∧
    (c = .sz → 3 ≤ w → f = 1 / 2 → away = some (2 ^ (w - 2)) ∧ even = some (2 ^ (w - 2))) ∧
    (c = .sz → 3 ≤ w → f = -1 / 2 → away = some (-(2 ^ (w - 2))) ∧ even = some (-(2 ^ (w - 2)))) ∧
    (c = .u → f = 1 / 2 → away = some (2 ^ (w - 1)) ∧ even = some (2 ^ (w - 1))) ∧
    (IsTie (scale c w f) → ¬ InDomain c f →
      (1 < f → away = some (hi c w) ∧ even = some (hi c w)) ∧
      (f < 0 → away = some (lo c w) ∧ even = some (lo c w)))

/-- R101: on an in-domain input the scaled value lies in the rule's interval and the clamp changes nothing;
an out-of-domain value is no fault and gets the end code, but for a value below -1 of `SZ` that still
rounds to the next code; an infinity gets the end code (R100). -/
def Obligations.ClampActsOnlyOutOfDomain : Prop :=
  ∀ (p : Params) (c : Codec) (F : Fmt) (w : Nat) (x : FloatFields), 2 ≤ w →
    (fclass F x = .finite → InDomain c (fval F x) →
      (c = .u → 0 ≤ scale c w (fval F x) ∧ scale c w (fval F x) ≤ 2 ^ w - 1) ∧
      (c = .sz → -(2 ^ (w - 1) - 1) ≤ scale c w (fval F x) ∧
        scale c w (fval F x) ≤ 2 ^ (w - 1) - 1) ∧
      (c = .sn → -(2 ^ (w - 1)) ≤ scale c w (fval F x) ∧ scale c w (fval F x) ≤ 2 ^ (w - 1) - 1) ∧
      quantize p c F w x = some (rnd p.tie (scale c w (fval F x)))) ∧
    (fclass F x = .finite → 1 < fval F x → quantize p c F w x = some (hi c w)) ∧
    (fclass F x = .finite → c = .u → fval F x < 0 → quantize p c F w x = some 0) ∧
    (fclass F x = .finite → c = .sn → fval F x < -1 → quantize p c F w x = some (lo c w)) ∧
    (fclass F x = .finite → c = .sz → fval F x < -1 →
      quantize p c F w x = some (lo c w) ∨ quantize p c F w x = some (lo c w + 1)) ∧
    (fclass F x = .posInf → quantize p c F w x = some (hi c w)) ∧
    (fclass F x = .negInf → quantize p c F w x = some (lo c w))

/-- R102: on the quotients that occur, `round_F` gives a finite pattern at least as near as any other, the
one with an even fraction when two are equally near; it keeps every value of the format, and it is
non-decreasing. -/
def Obligations.RoundToFloatIsCorrect : Prop :=
  ∀ (F : Fmt) (q : ℚ), (q = 0 ∨ ((2 : ℚ) ^ (-64 : ℤ) < |q| ∧ |q| ≤ 1)) →
    (roundF F q).Fits F ∧ fclass F (roundF F q) = .finite ∧
    (∀ y : FloatFields, y.Fits F → fclass F y = .finite →
      |fval F (roundF F q) - q| ≤ |fval F y - q| ∧
      (fval F y ≠ fval F (roundF F q) → |fval F y - q| = |fval F (roundF F q) - q| →
        (roundF F q).frac % 2 = 0) ∧
      (fval F y = q → q ≠ 0 → roundF F q = y)) ∧
    (∀ q' : ℚ, (q' = 0 ∨ ((2 : ℚ) ^ (-64 : ℤ) < |q'| ∧ |q'| ≤ 1)) → q ≤ q' →
      fval F (roundF F q) ≤ fval F (roundF F q')) ∧
    roundF F 0 = ⟨false, 0, 0⟩ ∧ roundF F 1 = floatOperand F (onePattern F) ∧
    roundF F (-1) = floatOperand F (negOnePattern F)

/-- R103, R104: the exact value of a decode is 0, for code 0 of `U` and `SZ` only, and is then returned as
`+0.0`; or its magnitude is from the rule's least value up to 1, and the result is a normal number of
magnitude at most 1. -/
def Obligations.DecodeResultRange : Prop :=
  ∀ (p : Params) (c : Codec) (F : Fmt) (w : Nat) (v : PortWord), p.Legal → LegalWidth p c w →
    IsCode c w (readCode c v) →
    let q := unscale c w (readCode c v)
    (q = 0 ↔ c ≠ .sn ∧ readCode c v = 0) ∧
    (q ≠ 0 → (1 : ℚ) / (2 ^ 64 - 1) ≤ |q| ∧ |q| ≤ 1 ∧
      (if c = .sz then 1 / (2 ^ (w - 1) - 1) else 1 / (2 ^ w - 1)) ≤ |q|) ∧
    (c = .u → readCode c v = 1 → |q| = 1 / (2 ^ w - 1)) ∧
    (c = .sz → readCode c v = 1 ∨ readCode c v = -1 → |q| = 1 / (2 ^ (w - 1) - 1)) ∧
    (c = .sn → readCode c v = 0 ∨ readCode c v = -1 → |q| = 1 / (2 ^ w - 1)) ∧
    ∃ y, decodeOp p c F w v = .ok y ∧
      (q = 0 → y = 0#64) ∧
      (q ≠ 0 → FiniteOn F y ∧ 1 ≤ (floatOperand F y).exp ∧ |valueOn F y| ≤ 1)

/-! ### The guaranteed properties (spec/44_guaranteed_properties.md) -/

/-- R180 with R183: the codes of the extremes, non-zero for the signed codecs, and the exact round trip,
for every codec, both formats and every valid W. -/
def Obligations.ExtremesRoundTrip : Prop :=
  (∀ (F : Fmt) (w : Nat), 2 ≤ w → w ≤ 32 →
    Answers (enc .u F w 0#64) (.ok (widen 0)) ∧
    Answers (dec .u F w (widen 0)) (.ok 0#64) ∧
    Answers (enc .u F w (onePattern F)) (.ok (widen (2 ^ w - 1))) ∧
    Answers (dec .u F w (widen (2 ^ w - 1))) (.ok (onePattern F))) ∧
  (∀ (F : Fmt) (w : Nat), 2 ≤ w → w ≤ 64 →
    Answers (enc .sz F w (negOnePattern F)) (.ok (widen (-(2 ^ (w - 1) - 1)))) ∧
    Answers (dec .sz F w (widen (-(2 ^ (w - 1) - 1)))) (.ok (negOnePattern F)) ∧
    Answers (enc .sz F w (onePattern F)) (.ok (widen (2 ^ (w - 1) - 1))) ∧
    Answers (dec .sz F w (widen (2 ^ (w - 1) - 1))) (.ok (onePattern F)) ∧
    Answers (enc .sn F w (negOnePattern F)) (.ok (widen (-(2 ^ (w - 1))))) ∧
    Answers (dec .sn F w (widen (-(2 ^ (w - 1))))) (.ok (negOnePattern F)) ∧
    Answers (enc .sn F w (onePattern F)) (.ok (widen (2 ^ (w - 1) - 1))) ∧
    Answers (dec .sn F w (widen (2 ^ (w - 1) - 1))) (.ok (onePattern F)) ∧
    widen (-(2 ^ (w - 1) - 1)) ≠ 0#64 ∧ widen (2 ^ (w - 1) - 1) ≠ 0#64 ∧
    widen (-(2 ^ (w - 1))) ≠ 0#64)

/-- R181: zero, of either sign, encodes to the all-zero result in `QU` and `QSZ`, and code 0 decodes to the
all-zero pattern. -/
def Obligations.ExactZero : Prop :=
  (∀ (F : Fmt) (w : Nat), 2 ≤ w → w ≤ 32 →
    Answers (enc .u F w 0#64) (.ok 0#64) ∧ Answers (enc .u F w (signBit F)) (.ok 0#64) ∧
    Answers (dec .u F w 0#64) (.ok 0#64)) ∧
  (∀ (F : Fmt) (w : Nat), 2 ≤ w → w ≤ 64 →
    Answers (enc .sz F w 0#64) (.ok 0#64) ∧ Answers (enc .sz F w (signBit F)) (.ok 0#64) ∧
    Answers (dec .sz F w 0#64) (.ok 0#64))

/-- R182: no code of the codec without zero decodes to a zero of either sign. -/
def Obligations.WithoutZeroNeverDecodesToZero : Prop :=
  ∀ (F : Fmt) (w : Nat) (n : ℤ), 2 ≤ w → w ≤ 64 → IsCode .sn w n →
    ∃ y, Answers (dec .sn F w (widen n)) (.ok y) ∧ y ≠ 0#64 ∧ y ≠ signBit F ∧ valueOn F y ≠ 0

/-- R184: encode does not reorder values: over all operands that are no NaN, with the infinities at the
ends, for all legal parameters. -/
def Obligations.EncodeIsMonotone : Prop :=
  ∀ (p : Params) (c : Codec) (F : Fmt) (w : Nat) (v₁ v₂ : PortWord), p.Legal → LegalWidth p c w →
    OperandLe F v₁ v₂ →
    ∃ x₁ x₂, encodeOp p c F w v₁ = .ok x₁ ∧ encodeOp p c F w v₂ = .ok x₂ ∧
      readCode c x₁ ≤ readCode c x₂

/-- R187: encode then decode in the same format returns a float within one step of an in-domain input;
decoding in any format adds at most half a unit in that format's last place to the exact error, and nothing
where the exact value is 0 (no last place is defined there); across formats the error can exceed one step. -/
def Obligations.RoundTripErrorBound : Prop :=
  (∀ (p : Params) (c : Codec) (F : Fmt) (w : Nat) (v : PortWord), p.Legal → LegalWidth p c w →
    FiniteOn F v → InDomain c (valueOn F v) →
    ∃ x, encodeOp p c F w v = .ok x ∧
      (∃ y, decodeOp p c F w x = .ok y ∧ |valueOn F y - valueOn F v| ≤ oneStep c w) ∧
      ∀ G : Fmt, ∃ y, decodeOp p c G w x = .ok y ∧
        (unscale c w (readCode c x) = 0 → valueOn G y = unscale c w (readCode c x)) ∧
        (unscale c w (readCode c x) ≠ 0 →
          |valueOn G y - valueOn F v| ≤ |unscale c w (readCode c x) - valueOn F v| +
            (2 : ℚ) ^ (ilog2 |unscale c w (readCode c x)| - (fracBits G : ℤ) - 1))) ∧
  (∀ w : Nat, 2 ≤ w → oneStep .sn w < 1 / (2 ^ (w - 1) - 1)) ∧
  ∃ v x y : PortWord, FiniteOn .d v ∧ InDomain .sz (valueOn .d v) ∧
    Answers (.qszD 64 v) (.ok x) ∧ Answers (.dqszS 64 x) (.ok y) ∧
    oneStep .sz 64 < |valueOn .s y - valueOn .d v|

/-- R189: the exact decode value of an in-domain input's code is within half the spacing of decoded values,
by the rule's formulas, and reaches that bound only at a tie. -/
def Obligations.ExactErrorBound : Prop :=
  ∀ (p : Params) (c : Codec) (F : Fmt) (w : Nat) (x : FloatFields), 2 ≤ w → fclass F x = .finite →
    InDomain c (fval F x) →
    ∃ n, quantize p c F w x = some n ∧
      (unscale c w n - fval F x = match c with
        | .u => (n - fval F x * (2 ^ w - 1)) / (2 ^ w - 1)
        | .sz => (n - fval F x * (2 ^ (w - 1) - 1)) / (2 ^ (w - 1) - 1)
        | .sn => 2 * (n - (fval F x * (2 ^ w - 1) - 1) / 2) / (2 ^ w - 1)) ∧
      |unscale c w n - fval F x| ≤ oneStep c w / 2 ∧
      (|unscale c w n - fval F x| = oneStep c w / 2 → IsTie (scale c w (fval F x)))

/-- R190: the spacing of the exact decoded values, and that the spacing of the codec without zero is
`1/(2^K - 1)` for no integer K (at K = 0 that expression has no value). -/
def Obligations.QuantizationStep : Prop :=
  ∀ (w : Nat) (n : ℤ), 2 ≤ w →
    unscale .u w (n + 1) - unscale .u w n = 1 / (2 ^ w - 1) ∧
    (lo .sz w < n → unscale .sz w (n + 1) - unscale .sz w n = 1 / (2 ^ (w - 1) - 1)) ∧
    unscale .sz w (lo .sz w) = -1 ∧ unscale .sz w (lo .sz w + 1) = -1 ∧
    unscale .sn w (n + 1) - unscale .sn w n = 2 / (2 ^ w - 1) ∧
    (∀ k : ℤ, k ≠ 0 → (2 : ℚ) / (2 ^ w - 1) ≠ 1 / ((2 : ℚ) ^ k - 1)) ∧
    (2 : ℚ) / (2 ^ w - 1) = 1 / (2 ^ (w - 1) - 1 / 2) ∧
    (1 : ℚ) / (2 ^ w - 1) < 2 / (2 ^ w - 1) ∧ (2 : ℚ) / (2 ^ w - 1) < 1 / (2 ^ (w - 1) - 1)

/-- R192: decode is non-decreasing in the code; the exact values strictly so, but for the bottom two codes
of `SZ`; and the returned floats not strictly so where the spacing is too fine (the example of R122). -/
def Obligations.DecodeIsMonotone : Prop :=
  (∀ (p : Params) (c : Codec) (F : Fmt) (w : Nat) (m n : ℤ), p.Legal → LegalWidth p c w →
    IsCode c w m → IsCode c w n → m < n →
    unscale c w m ≤ unscale c w n ∧
    (unscale c w m = unscale c w n ↔ c = .sz ∧ m = lo c w ∧ n = lo c w + 1) ∧
    ∃ y z, decodeOp p c F w (widen m) = .ok y ∧ decodeOp p c F w (widen n) = .ok z ∧
      valueOn F y ≤ valueOn F z) ∧
  Answers (.dquS 32 4294967294#64) (.ok (onePattern .s)) ∧
  Answers (.dquS 32 4294967295#64) (.ok (onePattern .s))

/-- R193 (a): at the widths the rule gives, decode then encode gives the code back, but for the bottom code
of `SZ`, which gives the next one; at each larger legal width some other code fails it; and the rule's
example at `DQSZ.D 64`. -/
def Obligations.CodeRoundTrip : Prop :=
  (∀ (c : Codec) (F : Fmt) (w : Nat) (n : ℤ), 2 ≤ w → w ≤ roundTripWidth F c → IsCode c w n →
    ∃ y, Answers (dec c F w (widen n)) (.ok y) ∧
      Answers (enc c F w y) (.ok (widen (if c = .sz ∧ n = lo .sz w then n + 1 else n)))) ∧
  (∀ (c : Codec) (F : Fmt) (w : Nat), roundTripWidth F c < w → w ≤ wmax Config.params c →
    ∃ (n m : ℤ) (y : PortWord), IsCode c w n ∧ lo c w < n ∧ IsCode c w m ∧ m ≠ n ∧
      Answers (dec c F w (widen n)) (.ok y) ∧ Answers (enc c F w y) (.ok (widen m))) ∧
  Answers (.dqszD 64 0x7FFFFFFFFFFFFFFE#64) (.ok (onePattern .d)) ∧
  Answers (.dqszD 64 0x7FFFFFFFFFFFFFFF#64) (.ok (onePattern .d)) ∧
  Answers (.qszD 64 (onePattern .d)) (.ok 0x7FFFFFFFFFFFFFFF#64)

/-- R186: the five lines of the document's concrete scenario, in both formats. -/
def Obligations.ConcreteScenario : Prop :=
  Answers (.quD 8 0x3FF0000000000000#64) (.ok 255#64) ∧
  Answers (.quS 8 0x3F800000#64) (.ok 255#64) ∧
  Answers (.dquD 8 255#64) (.ok 0x3FF0000000000000#64) ∧
  Answers (.dquS 8 255#64) (.ok 0x3F800000#64) ∧
  Answers (.qszD 8 0#64) (.ok 0#64) ∧
  Answers (.qszS 8 0#64) (.ok 0#64) ∧
  Answers (.qsnD 8 0xBFF0000000000000#64) (.ok 0xFFFFFFFFFFFFFF80#64) ∧
  Answers (.qsnS 8 0xBF800000#64) (.ok 0xFFFFFFFFFFFFFF80#64) ∧
  Answers (.dqsnD 8 0xFFFFFFFFFFFFFF80#64) (.ok 0xBFF0000000000000#64) ∧
  Answers (.dqsnS 8 0xFFFFFFFFFFFFFF80#64) (.ok 0xBF800000#64)

/-! ### Corner cases of the codecs (spec/41_unsigned.md, 42_signed_with_zero.md, 43_signed_without_zero.md) -/

/-- The corner cases of R120 and R121, and the edge policy of R125 with its examples. -/
def Obligations.UnsignedEncodeCorners : Prop :=
  (∀ (F : Fmt) (w : Nat) (v : PortWord), 2 ≤ w → w ≤ 32 →
    (fclass F (floatOperand F v) = .posInf → Answers (enc .u F w v) (.ok (widen (2 ^ w - 1)))) ∧
    (fclass F (floatOperand F v) = .negInf → Answers (enc .u F w v) (.ok 0#64)) ∧
    (FiniteOn F v → valueOn F v ≤ 0 → Answers (enc .u F w v) (.ok 0#64)) ∧
    (FiniteOn F v → 1 ≤ valueOn F v → Answers (enc .u F w v) (.ok (widen (2 ^ w - 1)))) ∧
    ((floatOperand F v).exp = 0 → Answers (enc .u F w v) (.ok 0#64)) ∧
    (FiniteOn F v → valueOn F v = 1 / 2 → Answers (enc .u F w v) (.ok (widen (2 ^ (w - 1)))))) ∧
  Answers (.quD 8 0x3FF8000000000000#64) (.ok 255#64) ∧
  Answers (.quD 8 0xBFD0000000000000#64) (.ok 0#64) ∧
  Answers (.quD 8 0xBF50624DD2F1A9FC#64) (.ok 0#64)

/-- R126: the unsigned codec at W = 2: the exact decoded values of its four codes, and the encode
thresholds 1/6, 1/2 and 5/6, ties that round up, of which only 1/2 is a float. -/
def Obligations.UnsignedWidthTwo : Prop :=
  (∀ n : ℤ, IsCode .u 2 n ↔ n = 0 ∨ n = 1 ∨ n = 2 ∨ n = 3) ∧
  unscale .u 2 0 = 0 ∧ unscale .u 2 1 = 1 / 3 ∧ unscale .u 2 2 = 2 / 3 ∧ unscale .u 2 3 = 1 ∧
  scale .u 2 (1 / 6) = 1 / 2 ∧ scale .u 2 (1 / 2) = 3 / 2 ∧ scale .u 2 (5 / 6) = 5 / 2 ∧
  rndAway (1 / 2) = 1 ∧ rndAway (3 / 2) = 2 ∧ rndAway (5 / 2) = 3 ∧
  ∀ (F : Fmt) (v : PortWord), FiniteOn F v →
    valueOn F v ≠ 1 / 6 ∧ valueOn F v ≠ 5 / 6 ∧
    (valueOn F v < 1 / 6 → Answers (enc .u F 2 v) (.ok 0#64)) ∧
    (1 / 6 < valueOn F v → valueOn F v < 1 / 2 → Answers (enc .u F 2 v) (.ok 1#64)) ∧
    (1 / 2 ≤ valueOn F v → valueOn F v < 5 / 6 → Answers (enc .u F 2 v) (.ok 2#64)) ∧
    (5 / 6 < valueOn F v → Answers (enc .u F 2 v) (.ok 3#64))

/-- R123: `DQU.D` is strictly increasing in the code at every legal width. -/
def Obligations.UnsignedDoubleDecodeStrict : Prop :=
  ∀ (w : Nat) (m n : PortWord), 2 ≤ w → w ≤ 32 → m.toNat < n.toNat → n.toNat ≤ 2 ^ w - 1 →
    ∃ y z, Answers (.dquD w m) (.ok y) ∧ Answers (.dquD w n) (.ok z) ∧ valueOn .d y < valueOn .d z

/-- The corner cases of R140 and R142, and R145: the encode is odd in the domain and stays in `[-M, M]`
there; the extra code is produced exactly below the threshold `-(M + 1/2)/M`; it decodes to -1.0 as
`-M` does; and only code 0 decodes to zero (R144). -/
def Obligations.ExtraNegativeCode : Prop :=
  ∀ (F : Fmt) (w : Nat), 2 ≤ w → w ≤ 64 →
    (∀ v, FiniteOn F v → InDomain .sz (valueOn F v) →
      ∃ n : ℤ, -(2 ^ (w - 1) - 1) ≤ n ∧ n ≤ 2 ^ (w - 1) - 1 ∧
        Answers (enc .sz F w v) (.ok (widen n)) ∧
        Answers (enc .sz F w (v ^^^ signBit F)) (.ok (widen (-n)))) ∧
    (∀ v, FiniteOn F v →
      (Answers (enc .sz F w v) (.ok (widen (-(2 ^ (w - 1))))) ↔
        valueOn F v ≤ -((2 ^ (w - 1) - 1 + 1 / 2) / (2 ^ (w - 1) - 1)))) ∧
    Answers (dec .sz F w (widen (-(2 ^ (w - 1))))) (.ok (negOnePattern F)) ∧
    Answers (dec .sz F w (widen (-(2 ^ (w - 1) - 1)))) (.ok (negOnePattern F)) ∧
    ∀ (n : ℤ) (y : PortWord), IsCode .sz w n → Answers (dec .sz F w (widen n)) (.ok y) →
      (valueOn F y = 0 ↔ n = 0)

/-- The corner cases of R160 and R162: a zero of either sign encodes to -1 (the tie, under this hardware's
`TIE`); every other in-domain input satisfies `code(-f) = -code(f) - 1`; and the decode is odd about the
pair `(c, -c-1)`, bit for bit apart from the sign bit. -/
def Obligations.WithoutZeroSymmetry : Prop :=
  ∀ (F : Fmt) (w : Nat), 2 ≤ w → w ≤ 64 →
    (∀ v, FiniteOn F v → valueOn F v = 0 → Answers (enc .sn F w v) (.ok (widen (-1)))) ∧
    (∀ v, FiniteOn F v → InDomain .sn (valueOn F v) → valueOn F v ≠ 0 →
      ∃ n : ℤ, Answers (enc .sn F w v) (.ok (widen n)) ∧
        Answers (enc .sn F w (v ^^^ signBit F)) (.ok (widen (-n - 1)))) ∧
    (∀ n : ℤ, IsCode .sn w n →
      ∃ y, Answers (dec .sn F w (widen n)) (.ok y) ∧
        Answers (dec .sn F w (widen (-n - 1))) (.ok (y ^^^ signBit F)))

/-- R165: the codec without zero at W = 2: its four codes with their results in both formats, and the
encode intervals, whose ends plus and minus 2/3 are no floats. -/
def Obligations.WithoutZeroWidthTwo : Prop :=
  (∀ n : ℤ, IsCode .sn 2 n ↔ n = -2 ∨ n = -1 ∨ n = 0 ∨ n = 1) ∧
  unscale .sn 2 (-2) = -1 ∧ unscale .sn 2 (-1) = -1 / 3 ∧ unscale .sn 2 0 = 1 / 3 ∧
  unscale .sn 2 1 = 1 ∧
  Answers (.dqsnD 2 0xFFFFFFFFFFFFFFFE#64) (.ok 0xBFF0000000000000#64) ∧
  Answers (.dqsnD 2 0xFFFFFFFFFFFFFFFF#64) (.ok 0xBFD5555555555555#64) ∧
  Answers (.dqsnD 2 0x0000000000000000#64) (.ok 0x3FD5555555555555#64) ∧
  Answers (.dqsnD 2 0x0000000000000001#64) (.ok 0x3FF0000000000000#64) ∧
  Answers (.dqsnS 2 0xFFFFFFFFFFFFFFFE#64) (.ok 0x00000000BF800000#64) ∧
  Answers (.dqsnS 2 0xFFFFFFFFFFFFFFFF#64) (.ok 0x00000000BEAAAAAB#64) ∧
  Answers (.dqsnS 2 0x0000000000000000#64) (.ok 0x000000003EAAAAAB#64) ∧
  Answers (.dqsnS 2 0x0000000000000001#64) (.ok 0x000000003F800000#64) ∧
  IsTie ((3 * (-2 / 3) - 1) / 2) ∧ IsTie ((3 * 0 - 1) / 2) ∧
  ∀ (F : Fmt) (v : PortWord), FiniteOn F v →
    valueOn F v ≠ -2 / 3 ∧ valueOn F v ≠ 2 / 3 ∧
    Answers (enc .sn F 2 v) (.ok (widen (clamp (rndAway ((3 * valueOn F v - 1) / 2)) (-2) 1))) ∧
    (-1 ≤ valueOn F v → valueOn F v < -2 / 3 → Answers (enc .sn F 2 v) (.ok (widen (-2)))) ∧
    (-2 / 3 < valueOn F v → valueOn F v < 0 → Answers (enc .sn F 2 v) (.ok (widen (-1)))) ∧
    (valueOn F v = 0 → Answers (enc .sn F 2 v) (.ok (widen (-1)))) ∧
    (0 < valueOn F v → valueOn F v < 2 / 3 → Answers (enc .sn F 2 v) (.ok (widen 0))) ∧
    (2 / 3 < valueOn F v → valueOn F v ≤ 1 → Answers (enc .sn F 2 v) (.ok (widen 1)))
end

