-- ==== Sys2Proof/Laws/Rounding.lean ====
section
/-! SUPPORT. What the integer roundings, the clamp and the binary exponent of spec/40_primitive.md R97,
R99 and R102 can answer. -/

namespace Sys2Proof.Machine

/-! ### Half away from zero -/

theorem rndAway_of_nonneg {x : ℚ} (h : 0 ≤ x) : rndAway x = ⌊x + 1 / 2⌋ := if_pos h

theorem rndAway_of_neg {x : ℚ} (h : x < 0) : rndAway x = -⌊-x + 1 / 2⌋ := if_neg (not_le.2 h)

@[simp] theorem rndAway_intCast (n : ℤ) : rndAway n = n := by
  have h0 : ⌊(1 / 2 : ℚ)⌋ = 0 := by norm_num
  rcases le_or_gt 0 (n : ℚ) with h | h
  · rw [rndAway_of_nonneg h, Int.floor_intCast_add, h0, add_zero]
  · rw [rndAway_of_neg h, ← Int.cast_neg, Int.floor_intCast_add, h0]; ring

theorem rndAway_near (x : ℚ) : |(rndAway x : ℚ) - x| ≤ 1 / 2 := by
  rw [abs_le]
  rcases le_or_gt 0 x with h | h
  · rw [rndAway_of_nonneg h]
    have h1 := Int.floor_le (x + 1 / 2)
    have h2 := Int.lt_floor_add_one (x + 1 / 2)
    constructor <;> linarith
  · rw [rndAway_of_neg h, Int.cast_neg]
    have h1 := Int.floor_le (-x + 1 / 2)
    have h2 := Int.lt_floor_add_one (-x + 1 / 2)
    constructor <;> linarith

theorem rndAway_nonneg {x : ℚ} (h : 0 ≤ x) : 0 ≤ rndAway x := by
  rw [rndAway_of_nonneg h]; exact Int.floor_nonneg.2 (by linarith)

theorem rndAway_nonpos {x : ℚ} (h : x < 0) : rndAway x ≤ 0 := by
  have h1 : 0 ≤ ⌊-x + 1 / 2⌋ := Int.floor_nonneg.2 (by linarith)
  rw [rndAway_of_neg h]; omega

theorem rndAway_mono : Monotone rndAway := by
  intro x y hxy
  rcases le_or_gt 0 x with hx | hx
  · rw [rndAway_of_nonneg hx, rndAway_of_nonneg (hx.trans hxy)]
    exact Int.floor_mono (by linarith)
  · rcases le_or_gt 0 y with hy | hy
    · exact (rndAway_nonpos hx).trans (rndAway_nonneg hy)
    · rw [rndAway_of_neg hx, rndAway_of_neg hy]
      exact neg_le_neg (Int.floor_mono (by linarith))

/-! ### Half to even -/

/-- The two ways of `rndEven`: down below (or at) the half, up above (or at) it, at the half to the
even neighbour. -/
theorem rndEven_cases (x : ℚ) :
    (rndEven x = ⌊x⌋ ∧ x - ⌊x⌋ ≤ 1 / 2 ∧ (x - ⌊x⌋ = 1 / 2 → ⌊x⌋ % 2 = 0)) ∨
    (rndEven x = ⌊x⌋ + 1 ∧ 1 / 2 ≤ x - ⌊x⌋ ∧ (x - ⌊x⌋ = 1 / 2 → ⌊x⌋ % 2 = 1)) := by
  unfold rndEven
  split_ifs with h1 h2 h3
  · exact .inl ⟨rfl, h1.le, fun h => absurd h h1.ne⟩
  · exact .inr ⟨rfl, h2.le, fun h => absurd h h2.ne'⟩
  · exact .inl ⟨rfl, not_lt.1 h2, fun _ => h3⟩
  · exact .inr ⟨rfl, not_lt.1 h1, fun _ => by omega⟩

@[simp] theorem rndEven_intCast (n : ℤ) : rndEven n = n := by
  simp [rndEven]

theorem rndEven_near (x : ℚ) : |(rndEven x : ℚ) - x| ≤ 1 / 2 := by
  have h1 := Int.floor_le x
  have h2 := Int.lt_floor_add_one x
  rw [abs_le]
  obtain ⟨h, hx, -⟩ | ⟨h, hx, -⟩ := rndEven_cases x
  · rw [h]; constructor <;> linarith
  · rw [h]; push_cast; constructor <;> linarith

/-- At a tie the even neighbour is taken. -/
theorem rndEven_tie {x : ℚ} (h : x - ⌊x⌋ = 1 / 2) : rndEven x % 2 = 0 := by
  obtain ⟨e, -, hx⟩ | ⟨e, -, hx⟩ := rndEven_cases x
  · rw [e]; exact hx h
  · have := hx h; rw [e]; omega

theorem rndEven_mono : Monotone rndEven := by
  intro x y hxy
  have hf : ⌊x⌋ ≤ ⌊y⌋ := Int.floor_mono hxy
  rcases hf.lt_or_eq with hlt | heq
  · have hx : rndEven x ≤ ⌊x⌋ + 1 := by
      obtain ⟨e, -⟩ | ⟨e, -⟩ := rndEven_cases x <;> omega
    have hy : ⌊y⌋ ≤ rndEven y := by
      obtain ⟨e, -⟩ | ⟨e, -⟩ := rndEven_cases y <;> omega
    omega
  · obtain ⟨ex, hx, px⟩ | ⟨ex, hx, px⟩ := rndEven_cases x <;>
      obtain ⟨ey, hy, py⟩ | ⟨ey, hy, py⟩ := rndEven_cases y
    · omega
    · omega
    · have hxe : x - ⌊x⌋ = 1 / 2 := by rw [← heq] at hy; linarith
      have hye : y - ⌊y⌋ = 1 / 2 := by rw [← heq] at hy ⊢; linarith
      have := px hxe
      have := py hye
      omega
    · omega

/-! ### Either tie rule, and the clamp -/

@[simp] theorem rnd_intCast (t : Tie) (n : ℤ) : rnd t n = n := by
  cases t <;> simp [rnd]

theorem rnd_near (t : Tie) (x : ℚ) : |(rnd t x : ℚ) - x| ≤ 1 / 2 := by
  cases t
  · exact rndAway_near x
  · exact rndEven_near x

theorem rnd_mono (t : Tie) : Monotone (rnd t) := by
  cases t
  · exact rndAway_mono
  · exact rndEven_mono

/-- A rounding stays between integers that bound its argument. -/
theorem rnd_mem (t : Tie) {x : ℚ} {l h : ℤ} (hl : (l : ℚ) ≤ x) (hh : x ≤ h) :
    l ≤ rnd t x ∧ rnd t x ≤ h := by
  have h1 := rnd_mono t hl
  have h2 := rnd_mono t hh
  rw [rnd_intCast] at h1 h2
  exact ⟨h1, h2⟩

/-- An integer within less than half of `x` is what `x` rounds to. -/
theorem rnd_eq_of_near (t : Tie) {x : ℚ} {n : ℤ} (h : |(n : ℚ) - x| < 1 / 2) : rnd t x = n := by
  have hr := rnd_near t x
  rw [abs_lt] at h
  rw [abs_le] at hr
  have h1 : ((rnd t x : ℤ) : ℚ) < n + 1 := by linarith
  have h2 : (n : ℚ) < rnd t x + 1 := by linarith
  have h3 : rnd t x < n + 1 := by exact_mod_cast h1
  have h4 : n < rnd t x + 1 := by exact_mod_cast h2
  omega

/-- The clamp saturates (R99). -/
theorem clamp_eq_max_min {n l h : ℤ} (hlh : l ≤ h) : clamp n l h = max l (min n h) := by
  unfold clamp; split_ifs <;> omega

theorem clamp_mem {l h : ℤ} (n : ℤ) (hlh : l ≤ h) : l ≤ clamp n l h ∧ clamp n l h ≤ h := by
  unfold clamp; split_ifs <;> omega

theorem clamp_of_mem {n l h : ℤ} (h1 : l ≤ n) (h2 : n ≤ h) : clamp n l h = n := by
  unfold clamp; split_ifs <;> omega

theorem clamp_of_le {n l h : ℤ} (hlh : l ≤ h) (hn : n ≤ l) : clamp n l h = l := by
  unfold clamp; split_ifs <;> omega

theorem clamp_of_ge {n l h : ℤ} (hlh : l ≤ h) (hn : h ≤ n) : clamp n l h = h := by
  unfold clamp; split_ifs <;> omega

theorem clamp_mono {l h : ℤ} (hlh : l ≤ h) : Monotone fun n => clamp n l h := by
  intro a b hab
  simp only [clamp_eq_max_min hlh]
  omega

/-! ### The binary exponent -/

/-- `ilog2` answers the exponent R102 asks for: `2^e <= a < 2^(e+1)`. -/
theorem ilog2_spec {a : ℚ} (ha : 0 < a) : (2 : ℚ) ^ ilog2 a ≤ a ∧ a < (2 : ℚ) ^ (ilog2 a + 1) := by
  set n := a.num.natAbs with hn
  set d := a.den with hd
  have hnum : 0 < a.num := Rat.num_pos.2 ha
  have hn0 : n ≠ 0 := by omega
  have hd0 : d ≠ 0 := a.den_nz
  have hdpos : (0 : ℚ) < d := by positivity
  have ha_eq : a = (n : ℚ) / d := by
    have h1 : ((n : ℤ) : ℚ) = a.num := by
      rw [hn]; exact_mod_cast Int.natAbs_of_nonneg hnum.le
    rw [Int.cast_natCast] at h1
    rw [h1, hd, Rat.num_div_den]
  have hnl : (2 : ℚ) ^ n.log2 ≤ n := by exact_mod_cast Nat.log2_self_le hn0
  have hnu : (n : ℚ) < 2 ^ (n.log2 + 1) := by exact_mod_cast Nat.lt_log2_self (n := n)
  have hdl : (2 : ℚ) ^ d.log2 ≤ d := by exact_mod_cast Nat.log2_self_le hd0
  have hdu : (d : ℚ) < 2 ^ (d.log2 + 1) := by exact_mod_cast Nat.lt_log2_self (n := d)
  have two : (2 : ℚ) ≠ 0 := by norm_num
  have hup : a < (2 : ℚ) ^ ((n.log2 : ℤ) - d.log2 + 1) := by
    rw [ha_eq, div_lt_iff₀ hdpos]
    calc (n : ℚ) < 2 ^ (n.log2 + 1) := hnu
      _ = (2 : ℚ) ^ ((n.log2 : ℤ) - d.log2 + 1) * 2 ^ d.log2 := by
          rw [← zpow_natCast, ← zpow_natCast, ← zpow_add₀ two]; congr 1; push_cast; ring
      _ ≤ _ := by gcongr
  have hlow : (2 : ℚ) ^ ((n.log2 : ℤ) - d.log2 - 1) ≤ a := by
    rw [ha_eq, le_div_iff₀ hdpos]
    calc (2 : ℚ) ^ ((n.log2 : ℤ) - d.log2 - 1) * d
        ≤ (2 : ℚ) ^ ((n.log2 : ℤ) - d.log2 - 1) * 2 ^ (d.log2 + 1) := by gcongr
      _ = 2 ^ n.log2 := by
          rw [← zpow_natCast, ← zpow_natCast, ← zpow_add₀ two]; congr 1; push_cast; ring
      _ ≤ n := hnl
  unfold ilog2
  rw [← hn, ← hd]
  split_ifs with h
  · exact ⟨h, hup⟩
  · exact ⟨hlow, by rw [sub_add_cancel]; exact not_le.1 h⟩

/-- The exponent is determined by its bounds. -/
theorem ilog2_eq {a : ℚ} {e : ℤ} (h1 : (2 : ℚ) ^ e ≤ a) (h2 : a < (2 : ℚ) ^ (e + 1)) : ilog2 a = e := by
  have ha : 0 < a := lt_of_lt_of_le (by positivity) h1
  obtain ⟨h3, h4⟩ := ilog2_spec ha
  have one : (1 : ℚ) < 2 := by norm_num
  have h5 := (zpow_lt_zpow_iff_right₀ one).1 (h1.trans_lt h4)
  have h6 := (zpow_lt_zpow_iff_right₀ one).1 (h3.trans_lt h2)
  omega

theorem ilog2_mono {a b : ℚ} (ha : 0 < a) (hab : a ≤ b) : ilog2 a ≤ ilog2 b := by
  have h := (ilog2_spec ha).1.trans_lt (hab.trans_lt (ilog2_spec (ha.trans_le hab)).2)
  have := (zpow_lt_zpow_iff_right₀ (by norm_num : (1 : ℚ) < 2)).1 h
  omega

end Sys2Proof.Machine
end

