-- ==== Sys2Proof/Laws/Codes.lean ====
section
/-! SUPPORT. The code ranges and how a code lies on a port (spec/40_primitive.md R91 to R93). -/

namespace Sys2Proof.Machine

theorem two_pow_half {w : Nat} (h : 2 ≤ w) : (2 : ℤ) ^ w = 2 * 2 ^ (w - 1) := by
  obtain ⟨k, rfl⟩ : ∃ k, w = k + 1 := ⟨w - 1, by omega⟩
  rw [Nat.add_sub_cancel, pow_succ]; ring

theorem two_le_pow_pred {w : Nat} (h : 2 ≤ w) : (2 : ℤ) ≤ 2 ^ (w - 1) := by
  calc (2 : ℤ) = 2 ^ 1 := by norm_num
    _ ≤ 2 ^ (w - 1) := pow_le_pow_right₀ (by norm_num) (by omega)

theorem pow_pred_le {w : Nat} (h : w ≤ 64) : (2 : ℤ) ^ (w - 1) ≤ 2 ^ 63 :=
  pow_le_pow_right₀ (by norm_num) (by omega)

theorem lo_le_hi (c : Codec) {w : Nat} (h : 2 ≤ w) : lo c w ≤ hi c w := by
  have := two_le_pow_pred h
  have := two_pow_half h
  cases c <;> simp only [lo, hi] <;> omega

/-- Reading a widened code back gives the code (R92, R93), at every width the ports can carry. -/
theorem readCode_widen (c : Codec) {w : Nat} (h2 : 2 ≤ w) (h64 : w ≤ 64) {n : ℤ} (hn : IsCode c w n) :
    readCode c (widen n) = n := by
  obtain ⟨h1, h3⟩ := hn
  have hp := pow_pred_le h64
  have hw := two_pow_half h2
  cases c <;> simp only [lo, hi, readCode, widen] at *
  · rw [BitVec.toNat_ofInt]
    omega
  · rw [BitVec.toInt_ofInt, Int.bmod_eq_of_le] <;> omega
  · rw [BitVec.toInt_ofInt, Int.bmod_eq_of_le] <;> omega

theorem wmax_le {p : Params} (hp : p.Legal) (c : Codec) : wmax p c ≤ 64 := by
  obtain ⟨⟨_, h1⟩, ⟨_, h2⟩⟩ := hp
  cases c <;> simpa only [wmax]

theorem config_legal : Config.params.Legal := by decide

/-- The greatest code of `SZ` as a rational, at least 1: the divisor of its decode (R94). -/
theorem one_le_codeMax {w : Nat} (h : 2 ≤ w) : (1 : ℚ) ≤ 2 ^ (w - 1) - 1 := by
  have := two_le_pow_pred h
  have h' : ((2 : ℤ) : ℚ) ≤ ((2 ^ (w - 1) : ℤ) : ℚ) := by exact_mod_cast this
  push_cast at h'; linarith

/-- The divisor of the `U` and `SN` decodes is at least 3 (R94). -/
theorem three_le_codeSpan {w : Nat} (h : 2 ≤ w) : (3 : ℚ) ≤ 2 ^ w - 1 := by
  have h1 := one_le_codeMax h
  have h2 : ((2 : ℚ)) ^ w = 2 * 2 ^ (w - 1) := by exact_mod_cast two_pow_half h
  linarith

end Sys2Proof.Machine
end

