-- ==== Sys2Proof/Laws/State.lean ====
section
/-! SUPPORT. One lemma per field per update of the state, so that no proof unfolds a record update. -/

namespace Sys2Proof.Machine

@[simp] theorem reset_requests : State.reset.requests = [] := rfl
@[simp] theorem reset_responses : State.reset.responses = [] := rfl

@[simp] theorem deliver_requests (r : Response) (s : State) : (deliver r s).requests = s.requests := rfl
@[simp] theorem deliver_responses (r : Response) (s : State) :
    (deliver r s).responses = s.responses ++ [r] := rfl

@[simp] theorem raise_requests (f : Fault) (s : State) : (raise f s).requests = s.requests := rfl
@[simp] theorem raise_responses (f : Fault) (s : State) :
    (raise f s).responses = s.responses ++ [.fault f] := rfl

@[simp] theorem withFetchWord_requests (s : State) (n w : Nat) :
    (s.withFetchWord n w).requests = requestOfBits n w :: s.requests := rfl
@[simp] theorem withFetchWord_responses (s : State) (n w : Nat) :
    (s.withFetchWord n w).responses = s.responses := rfl

@[simp] theorem status_ok (r : PortWord) : (Response.ok r).status = 0#3 := rfl
@[simp] theorem status_fault (f : Fault) : (Response.fault f).status = f.status := rfl
@[simp] theorem result_ok (r : PortWord) : (Response.ok r).result = some r := rfl
@[simp] theorem result_fault (f : Fault) : (Response.fault f).result = none := rfl

theorem fetch_of_nil {s : State} (h : s.requests = []) : fetch s = none := by
  simp only [fetch, h]

theorem fetch_of_cons {s : State} {r : Request} {rest : List Request} (h : s.requests = r :: rest) :
    fetch s = some (r, { s with requests := rest }) := by
  simp only [fetch, h]

end Sys2Proof.Machine
end

