-- ==== Sys2Proof/Laws/Answers.lean ====
section
/-! SUPPORT. What an encode, a decode, an instruction and a step can answer, said once. -/

namespace Sys2Proof.Machine

/-- The four ways of a float operand (step 3a of R108). -/
theorem quantize_cases (p : Params) (c : Codec) (F : Fmt) (w : Nat) (x : FloatFields) :
    (fclass F x = .nan ∧ quantize p c F w x = none) ∨
    (fclass F x = .posInf ∧ quantize p c F w x = some (hi c w)) ∨
    (fclass F x = .negInf ∧ quantize p c F w x = some (lo c w)) ∨
    (fclass F x = .finite ∧
      quantize p c F w x = some (clampRound p.tie (scale c w (fval F x)) (lo c w) (hi c w))) := by
  unfold quantize
  cases fclass F x <;> simp

/-- A quantized code is a code (R91, R99). -/
theorem quantize_isCode {p : Params} {c : Codec} {F : Fmt} {w : Nat} {x : FloatFields} {n : ℤ}
    (hw : 2 ≤ w) (h : quantize p c F w x = some n) : IsCode c w n := by
  have hlh := lo_le_hi c hw
  obtain ⟨-, e⟩ | ⟨-, e⟩ | ⟨-, e⟩ | ⟨-, e⟩ := quantize_cases p c F w x <;> rw [e] at h
  · cases h
  · cases h; exact ⟨hlh, le_rfl⟩
  · cases h; exact ⟨le_rfl, hlh⟩
  · cases h; exact clamp_mem _ hlh

theorem encodeOp_of_quantize {p : Params} {c : Codec} {F : Fmt} {w : Nat} {v : PortWord} {n : ℤ}
    (hw : LegalWidth p c w) (h : quantize p c F w (floatOperand F v) = some n) :
    encodeOp p c F w v = .ok (widen n) := by
  rw [encodeOp, if_pos hw, h]

/-- The three ways of an encode operation, in the order of R219. -/
theorem encodeOp_cases (p : Params) (c : Codec) (F : Fmt) (w : Nat) (v : PortWord) :
    (¬ LegalWidth p c w ∧ encodeOp p c F w v = .fault .widthRange) ∨
    (LegalWidth p c w ∧ fclass F (floatOperand F v) = .nan ∧ encodeOp p c F w v = .fault .operandNan) ∨
    (LegalWidth p c w ∧ fclass F (floatOperand F v) ≠ .nan ∧
      ∃ n, quantize p c F w (floatOperand F v) = some n ∧ IsCode c w n ∧
        encodeOp p c F w v = .ok (widen n)) := by
  by_cases hw : LegalWidth p c w
  · right
    obtain ⟨hc, e⟩ | ⟨hc, e⟩ | ⟨hc, e⟩ | ⟨hc, e⟩ := quantize_cases p c F w (floatOperand F v)
    · exact .inl ⟨hw, hc, by rw [encodeOp, if_pos hw, e]⟩
    all_goals
      exact .inr ⟨hw, by rw [hc]; decide, _, e, quantize_isCode hw.1 e, encodeOp_of_quantize hw e⟩
  · exact .inl ⟨hw, if_neg hw⟩

/-- The three ways of a decode operation, in the order of R219. -/
theorem decodeOp_cases (p : Params) (c : Codec) (F : Fmt) (w : Nat) (v : PortWord) :
    (¬ LegalWidth p c w ∧ decodeOp p c F w v = .fault .widthRange) ∨
    (LegalWidth p c w ∧ ¬ IsCode c w (readCode c v) ∧ decodeOp p c F w v = .fault .codeRange) ∨
    (LegalWidth p c w ∧ IsCode c w (readCode c v) ∧
      decodeOp p c F w v = .ok (floatResult F (roundF F (unscale c w (readCode c v))))) := by
  unfold decodeOp
  split_ifs with h1 h2
  · exact .inr (.inr ⟨h1, h2, rfl⟩)
  · exact .inr (.inl ⟨h1, h2, rfl⟩)
  · exact .inl ⟨h1, rfl⟩

/-- Every encode instruction delivers the response of the shared encode operation. -/
theorem exec_enc (c : Codec) (F : Fmt) (w : Nat) (v : PortWord) (s : State) :
    exec (enc c F w v) s = .next (deliver (encodeOp Config.params c F w v) s) := by
  cases c <;> cases F <;> rfl

/-- Every decode instruction delivers the response of the shared decode operation. -/
theorem exec_dec (c : Codec) (F : Fmt) (w : Nat) (v : PortWord) (s : State) :
    exec (dec c F w v) s = .next (deliver (decodeOp Config.params c F w v) s) := by
  cases c <;> cases F <;> rfl

/-- An instruction is the operation its fields select. -/
theorem ofFields_fields (i : Instr) : .ofFields i.codec i.dir i.fmt i.width i.operand = i := by
  cases i <;> rfl

/-- A response determines what an instruction answers, and is determined by it. -/
theorem answers_unique {i : Instr} {r₁ r₂ : Response} (h₁ : Answers i r₁) (h₂ : Answers i r₂) :
    r₁ = r₂ := by
  have h := (h₁ .reset).symm.trans (h₂ .reset)
  simpa using h

/-- A step that answers a next state is the first step of a longer run, of any machine. -/
theorem coreRun_of_step {M : Host.Core} {s t : M.State} (k : Nat) (h : M.step s = .next t) :
    M.run (k + 1) s = M.run k t := by
  simp only [Host.Core.run, h]

/-- A step that answers a next state is the first step of a longer run. -/
theorem run_of_step {s t : State} (k : Nat) (h : step s = .next t) :
    Sys2Proof.core.run (k + 1) s = Sys2Proof.core.run k t :=
  coreRun_of_step (M := Sys2Proof.core) k h

/-- The three ways of a step: no request, an illegal command, or the decoded instruction. -/
theorem step_cases (s : State) :
    (s.requests = [] ∧ step s = .next s) ∨
    (∃ r rest e, s.requests = r :: rest ∧ Sys2Proof.decode r = .error e ∧
      step s = .next (raise .illegalCommand { s with requests := rest })) ∨
    (∃ r rest i, s.requests = r :: rest ∧ Sys2Proof.decode r = .ok i ∧
      step s = exec i { s with requests := rest }) := by
  cases hr : s.requests with
  | nil => exact .inl ⟨rfl, by rw [step, fetch_of_nil hr]⟩
  | cons r rest =>
    right
    cases hd : Sys2Proof.decode r with
    | error e => exact .inl ⟨r, rest, e, rfl, hd, by rw [step, fetch_of_cons hr]; simp only [hd]⟩
    | ok i => exact .inr ⟨r, rest, i, rfl, hd, by rw [step, fetch_of_cons hr]; simp only [hd]⟩

end Sys2Proof.Machine
end

