-- ==== Sys2Proof/Laws/Floats.lean ====
section
/-! SUPPORT. Float fields on the ports, and the value of what `roundF` answers
(spec/40_primitive.md R95, R96, R102; spec/30_encoding.md R64, R65). -/

namespace Sys2Proof.Machine

theorem fieldsS_packS {x : FloatFields} (h : x.Fits .s) : fieldsS (packS x) = x := by
  obtain ⟨s, e, m⟩ := x
  obtain ⟨he, hm⟩ := h
  simp only [expBits, fracBits] at he hm
  have hv : (packS ⟨s, e, m⟩).toNat = s.toNat * 2 ^ 31 + e * 2 ^ 23 + m := by
    unfold packS
    rw [BitVec.toNat_append, BitVec.toNat_append, ← Nat.shiftLeft_add_eq_or_of_lt (by simp [Nat.mod_lt]),
      ← Nat.shiftLeft_add_eq_or_of_lt (by simp [Nat.mod_lt])]
    simp only [Nat.shiftLeft_eq, BitVec.toNat_ofNat, Nat.mod_eq_of_lt he, Nat.mod_eq_of_lt hm,
      BitVec.toNat_ofBool]
    ring
  unfold fieldsS
  congr 1
  · rw [BitVec.getLsbD, hv, Nat.testBit_eq_decide_div_mod_eq]
    cases s <;> simp <;> omega
  · rw [BitVec.extractLsb_toNat, hv, Nat.shiftRight_eq_div_pow]
    cases s <;> simp <;> omega
  · rw [BitVec.extractLsb_toNat, hv, Nat.shiftRight_eq_div_pow]
    cases s <;> simp <;> omega

theorem fieldsD_packD {x : FloatFields} (h : x.Fits .d) : fieldsD (packD x) = x := by
  obtain ⟨s, e, m⟩ := x
  obtain ⟨he, hm⟩ := h
  simp only [expBits, fracBits] at he hm
  have hv : (packD ⟨s, e, m⟩).toNat = s.toNat * 2 ^ 63 + e * 2 ^ 52 + m := by
    unfold packD
    rw [BitVec.toNat_append, BitVec.toNat_append, ← Nat.shiftLeft_add_eq_or_of_lt (by simp [Nat.mod_lt]),
      ← Nat.shiftLeft_add_eq_or_of_lt (by simp [Nat.mod_lt])]
    simp only [Nat.shiftLeft_eq, BitVec.toNat_ofNat, Nat.mod_eq_of_lt he, Nat.mod_eq_of_lt hm,
      BitVec.toNat_ofBool]
    ring
  unfold fieldsD
  congr 1
  · rw [BitVec.getLsbD, hv, Nat.testBit_eq_decide_div_mod_eq]
    cases s <;> simp <;> omega
  · rw [BitVec.extractLsb_toNat, hv, Nat.shiftRight_eq_div_pow]
    cases s <;> simp <;> omega
  · rw [BitVec.extractLsb_toNat, hv, Nat.shiftRight_eq_div_pow]
    cases s <;> simp <;> omega

/-- A float placed on the result port reads back as itself (R64, R65). -/
theorem floatOperand_floatResult (F : Fmt) {x : FloatFields} (h : x.Fits F) :
    floatOperand F (floatResult F x) = x := by
  cases F
  · have hx : ((packS x).setWidth 64).extractLsb 31 0 = packS x := by
      apply BitVec.eq_of_toNat_eq
      have hlt := (packS x).isLt
      rw [BitVec.extractLsb_toNat, BitVec.toNat_setWidth, Nat.shiftRight_zero]
      simp only [Nat.sub_zero, Nat.reduceAdd] at *
      omega
    simp only [floatOperand, floatResult, hx, fieldsS_packS h]
  · simp only [floatOperand, floatResult, fieldsD_packD h]

/-- Every port word holds fields that fit. -/
theorem floatOperand_fits (F : Fmt) (v : PortWord) : (floatOperand F v).Fits F := by
  cases F
  · exact ⟨BitVec.isLt _, BitVec.isLt _⟩
  · exact ⟨BitVec.isLt _, BitVec.isLt _⟩

theorem fclass_finite_iff (F : Fmt) (x : FloatFields) :
    fclass F x = .finite ↔ x.exp ≠ 2 ^ expBits F - 1 := by
  unfold fclass; split_ifs <;> simp_all

theorem signFactor_eq (s : Bool) : signFactor s = 1 ∨ signFactor s = -1 := by
  cases s <;> simp [signFactor]

/-- The significand of R102 lies in `[2^P, 2^(P+1)]` and is within half of the exact one. -/
theorem significand_spec (F : Fmt) {a : ℚ} (ha : 0 < a) :
    (2 : ℤ) ^ fracBits F ≤ significand F a ∧ significand F a ≤ 2 ^ (fracBits F + 1) ∧
    |(significand F a : ℚ) - a / (2 : ℚ) ^ (ilog2 a - (fracBits F : ℤ))| ≤ 1 / 2 := by
  obtain ⟨h1, h2⟩ := ilog2_spec ha
  have two : (2 : ℚ) ≠ 0 := by norm_num
  have hpos : (0 : ℚ) < 2 ^ (ilog2 a - (fracBits F : ℤ)) := by positivity
  have hl : (((2 : ℤ) ^ fracBits F : ℤ) : ℚ) ≤ a / (2 : ℚ) ^ (ilog2 a - (fracBits F : ℤ)) := by
    rw [le_div_iff₀ hpos]; push_cast
    calc (2 : ℚ) ^ fracBits F * 2 ^ (ilog2 a - (fracBits F : ℤ)) = 2 ^ ilog2 a := by
          rw [← zpow_natCast, ← zpow_add₀ two]; congr 1; ring
      _ ≤ a := h1
  have hu : a / (2 : ℚ) ^ (ilog2 a - (fracBits F : ℤ)) ≤ (((2 : ℤ) ^ (fracBits F + 1) : ℤ) : ℚ) := by
    rw [div_le_iff₀ hpos]; push_cast
    calc a ≤ 2 ^ (ilog2 a + 1) := h2.le
      _ = (2 : ℚ) ^ (fracBits F + 1) * 2 ^ (ilog2 a - (fracBits F : ℤ)) := by
          rw [← zpow_natCast, ← zpow_add₀ two]; congr 1; push_cast; ring
  obtain ⟨h3, h4⟩ := rnd_mem .even hl hu
  exact ⟨h3, h4, rndEven_near _⟩

/-- What `normalFields` answers for an exponent and a significand that give a normal number: fields
that fit, finite and normal, of value `(-1)^s * n * 2^(e - P)`. -/
theorem normalFields_spec (F : Fmt) (s : Bool) {e n : ℤ} (he1 : 1 - (bias F : ℤ) ≤ e)
    (he2 : e < bias F) (hn1 : (2 : ℤ) ^ fracBits F ≤ n) (hn2 : n ≤ 2 ^ (fracBits F + 1)) :
    (normalFields F s e n).Fits F ∧ fclass F (normalFields F s e n) = .finite ∧
    (normalFields F s e n).exp ≠ 0 ∧ (normalFields F s e n).sign = s ∧
    fval F (normalFields F s e n) = signFactor s * n * (2 : ℚ) ^ (e - (fracBits F : ℤ)) := by
  have two : (2 : ℚ) ≠ 0 := by norm_num
  have hb : ((2 : ℤ) ^ expBits F) = 2 * bias F + 2 := by cases F <;> simp [expBits, bias]
  have hbn : (2 ^ expBits F) = 2 * bias F + 2 := by exact_mod_cast hb
  have hbp : 0 < bias F := by cases F <;> simp [bias]
  have hexp : ∀ k : ℤ, 0 ≤ k → k < 2 ^ expBits F →
      ((BitVec.ofInt (expBits F) k).toNat : ℤ) = k := by
    intro k h0 h1
    rw [BitVec.toNat_ofInt, Int.toNat_of_nonneg (Int.emod_nonneg _ (by positivity)),
      Int.emod_eq_of_lt h0 (by exact_mod_cast h1)]
  by_cases h : n = 2 ^ (fracBits F + 1)
  · have hx : ((normalFields F s e n).exp : ℤ) = e + 1 + bias F := by
      simp only [normalFields, if_pos h]
      exact hexp _ (by omega) (by omega)
    have hne : (normalFields F s e n).exp ≠ 0 := by omega
    have hfr : (normalFields F s e n).frac = 0 := by simp only [normalFields, if_pos h]
    have hsg : (normalFields F s e n).sign = s := by simp only [normalFields, if_pos h]
    refine ⟨⟨by omega, by rw [hfr]; positivity⟩, (fclass_finite_iff _ _).2 (by omega), hne, hsg, ?_⟩
    rw [fval, if_neg hne, hfr, hsg, hx, h]
    push_cast
    rw [mul_assoc, mul_assoc, add_zero, ← zpow_natCast, ← zpow_natCast, ← zpow_add₀ two,
      ← zpow_add₀ two]
    congr 2; push_cast; ring
  · have hlt : n < 2 ^ (fracBits F + 1) := lt_of_le_of_ne hn2 h
    have hx : ((normalFields F s e n).exp : ℤ) = e + bias F := by
      simp only [normalFields, if_neg h]
      exact hexp _ (by omega) (by omega)
    have hne : (normalFields F s e n).exp ≠ 0 := by omega
    have hfr : ((normalFields F s e n).frac : ℤ) = n - 2 ^ fracBits F := by
      simp only [normalFields, if_neg h]
      rw [BitVec.toNat_ofInt, Int.toNat_of_nonneg (Int.emod_nonneg _ (by positivity)),
        Int.emod_eq_of_lt (by omega) (by rw [pow_succ] at hlt; push_cast; omega)]
    have hsg : (normalFields F s e n).sign = s := by simp only [normalFields, if_neg h]
    refine ⟨⟨by omega, ?_⟩, (fclass_finite_iff _ _).2 (by omega), hne, hsg, ?_⟩
    · have : ((normalFields F s e n).frac : ℤ) < 2 ^ fracBits F := by
        rw [pow_succ] at hlt; omega
      exact_mod_cast this
    · have hq : ((normalFields F s e n).frac : ℚ) = (n : ℚ) - 2 ^ fracBits F := by
        exact_mod_cast congrArg (Int.cast : ℤ → ℚ) hfr
      rw [fval, if_neg hne, hsg, hx, hq]
      congr 2 <;> ring

/-- What `roundF` answers on the quotients of R103: a normal number of the quotient's sign, whose value
is the rounded significand at the quotient's exponent. -/
theorem roundF_spec (F : Fmt) {q : ℚ} (h0 : q ≠ 0) (hl : (2 : ℚ) ^ (-64 : ℤ) ≤ |q|) (hu : |q| ≤ 1) :
    (roundF F q).Fits F ∧ fclass F (roundF F q) = .finite ∧ (roundF F q).exp ≠ 0 ∧
    (roundF F q).sign = decide (q < 0) ∧
    fval F (roundF F q) = signFactor (decide (q < 0)) * significand F |q| *
      (2 : ℚ) ^ (ilog2 |q| - (fracBits F : ℤ)) := by
  have ha : 0 < |q| := abs_pos.2 h0
  obtain ⟨h1, h2, -⟩ := significand_spec F ha
  obtain ⟨h3, h4⟩ := ilog2_spec ha
  have one : (1 : ℚ) < 2 := by norm_num
  have h5 := (zpow_lt_zpow_iff_right₀ one).1 (hl.trans_lt h4)
  have h6 : (2 : ℚ) ^ ilog2 |q| < 2 ^ (1 : ℤ) := h3.trans_lt (hu.trans_lt (by norm_num))
  have h6 := (zpow_lt_zpow_iff_right₀ one).1 h6
  have hb : 126 < bias F := by cases F <;> simp [bias]
  rw [roundF, if_neg h0]
  exact normalFields_spec F _ (by omega) (by omega) h1 h2

@[simp] theorem roundF_zero (F : Fmt) : roundF F 0 = ⟨false, 0, 0⟩ := if_pos rfl

end Sys2Proof.Machine
end

