-- ==== Sys2Proof/Laws/PerInstr.lean ====
section
/-! SUPPORT. The family `EncodeLayout`: where the fields of an instruction lie in the word the encoder
writes (spec/30_encoding.md R61, R66). One lemma per constructor. -/

namespace Sys2Proof

/-- The number of a command word made of a width that fits and an opcode: `(W << 4) | OPC` (R66). -/
theorem cmdWord_toNat {w : Nat} (h : w ≤ 127) (opc : BitVec 4) :
    (cmdWord w opc).toNat = 16 * w + opc.toNat := by
  have ho := opc.isLt
  unfold cmdWord
  rw [BitVec.toNat_append, BitVec.toNat_append, ← Nat.shiftLeft_add_eq_or_of_lt ho,
    ← Nat.shiftLeft_add_eq_or_of_lt (by simp [Nat.mod_lt])]
  simp only [Nat.shiftLeft_eq, BitVec.toNat_ofNat]
  omega

end Sys2Proof

namespace Sys2Proof.Laws.EncodeLayout

/-- The encoded command is `16 * W + OPC`, with the reserved bits zero, the width in its field and the
opcode in the low four bits, and the operand is carried unchanged. -/
def Statement (i : Instr) : Prop :=
  i.WellFormed →
    (encode i).cmd.toNat = 16 * i.width + i.opc.toNat ∧ cmdRsv (encode i).cmd = 0#5 ∧
    cmdWidth (encode i).cmd = i.width ∧ (encode i).cmd.extractLsb 3 0 = i.opc ∧
    (encode i).operand = i.operand

theorem of_toNat {i : Instr} (hc : (encode i).cmd.toNat = 16 * i.width + i.opc.toNat)
    (hw : i.width ≤ 127) :
    cmdRsv (encode i).cmd = 0#5 ∧ cmdWidth (encode i).cmd = i.width ∧
    (encode i).cmd.extractLsb 3 0 = i.opc := by
  have ho := i.opc.isLt
  refine ⟨BitVec.eq_of_toNat_eq ?_, ?_, BitVec.eq_of_toNat_eq ?_⟩
  · rw [cmdRsv, BitVec.extractLsb_toNat, hc, Nat.shiftRight_eq_div_pow]; simp; omega
  · rw [cmdWidth, BitVec.extractLsb_toNat, hc, Nat.shiftRight_eq_div_pow]; omega
  · rw [BitVec.extractLsb_toNat, hc, Nat.shiftRight_eq_div_pow]; omega

theorem of_wellFormed (i : Instr) : Statement i := fun h =>
  have hc := cmdWord_toNat h i.opc
  have hf := of_toNat (i := i) hc h
  ⟨hc, hf.1, hf.2.1, hf.2.2, rfl⟩

theorem quS (w : Nat) (v : PortWord) : Statement (.quS w v) := of_wellFormed _
theorem qszS (w : Nat) (v : PortWord) : Statement (.qszS w v) := of_wellFormed _
theorem qsnS (w : Nat) (v : PortWord) : Statement (.qsnS w v) := of_wellFormed _
theorem dquS (w : Nat) (v : PortWord) : Statement (.dquS w v) := of_wellFormed _
theorem dqszS (w : Nat) (v : PortWord) : Statement (.dqszS w v) := of_wellFormed _
theorem dqsnS (w : Nat) (v : PortWord) : Statement (.dqsnS w v) := of_wellFormed _
theorem quD (w : Nat) (v : PortWord) : Statement (.quD w v) := of_wellFormed _
theorem qszD (w : Nat) (v : PortWord) : Statement (.qszD w v) := of_wellFormed _
theorem qsnD (w : Nat) (v : PortWord) : Statement (.qsnD w v) := of_wellFormed _
theorem dquD (w : Nat) (v : PortWord) : Statement (.dquD w v) := of_wellFormed _
theorem dqszD (w : Nat) (v : PortWord) : Statement (.dqszD w v) := of_wellFormed _
theorem dqsnD (w : Nat) (v : PortWord) : Statement (.dqsnD w v) := of_wellFormed _

end Sys2Proof.Laws.EncodeLayout
end

