-- ==== Sys2Proof/Tests/Slice0.lean ====
section
/-! SUPPORT. Small tests: ill-formed terms, one word per operation written out from the encoding of R61 and
R66, at most two steps per operation with the answers of spec/95_test_vectors.md, and a witness for the
hypotheses of each statement that has some. -/

namespace Sys2Proof.Machine

-- One proof at a time: each `decide +kernel` waits for the kernel, and every waiting proof holds a thread.
set_option Elab.async false

/-- The block with one request waiting. -/
def waiting (cmd : CmdWord) (v : PortWord) : State := { requests := [⟨cmd, v⟩], responses := [] }

/-- The state after one step. -/
def stepped (s : State) : Option State :=
  match step s with
  | .next t => some t
  | .fault _ => none
  | .refused _ => none

/-- The block with nothing waiting and one response delivered. -/
def answered (r : Response) : Option State := some { requests := [], responses := [r] }

/-! ### Well-formedness: the width field has seven bits (R61, R63) -/

theorem test_wellFormed_refuses_quS : ¬ (Instr.quS 128 0).WellFormed := by decide
theorem test_wellFormed_refuses_qszS : ¬ (Instr.qszS 128 0).WellFormed := by decide
theorem test_wellFormed_refuses_qsnS : ¬ (Instr.qsnS 128 0).WellFormed := by decide
theorem test_wellFormed_refuses_dquS : ¬ (Instr.dquS 128 0).WellFormed := by decide
theorem test_wellFormed_refuses_dqszS : ¬ (Instr.dqszS 128 0).WellFormed := by decide
theorem test_wellFormed_refuses_dqsnS : ¬ (Instr.dqsnS 128 0).WellFormed := by decide
theorem test_wellFormed_refuses_quD : ¬ (Instr.quD 128 0).WellFormed := by decide
theorem test_wellFormed_refuses_qszD : ¬ (Instr.qszD 128 0).WellFormed := by decide
theorem test_wellFormed_refuses_qsnD : ¬ (Instr.qsnD 128 0).WellFormed := by decide
theorem test_wellFormed_refuses_dquD : ¬ (Instr.dquD 128 0).WellFormed := by decide
theorem test_wellFormed_refuses_dqszD : ¬ (Instr.dqszD 128 0).WellFormed := by decide
theorem test_wellFormed_refuses_dqsnD : ¬ (Instr.dqsnD 300 0).WellFormed := by decide
theorem test_wellFormed_takes_every_field_value :
    (Instr.quS 0 0).WellFormed ∧ (Instr.dqsnD 127 0).WellFormed := by decide

/-! ### Decoding: RSV, W, FMT, DIR, CODEC, most significant bit first (R61, R66) -/

theorem test_decode_quS : decodeTableWord 16 0b00000_0001000_0_0_00 = some (.quS 8 0) := by decide
theorem test_decode_qszS : decodeTableWord 16 0b00000_1000000_0_0_01 = some (.qszS 64 0) := by decide
theorem test_decode_qsnS : decodeTableWord 16 0b00000_0000010_0_0_10 = some (.qsnS 2 0) := by decide
theorem test_decode_dquS : decodeTableWord 16 0b00000_0100000_0_1_00 = some (.dquS 32 0) := by decide
theorem test_decode_dqszS : decodeTableWord 16 0b00000_0111111_0_1_01 = some (.dqszS 63 0) := by decide
theorem test_decode_dqsnS : decodeTableWord 16 0b00000_0000011_0_1_10 = some (.dqsnS 3 0) := by decide
theorem test_decode_quD : decodeTableWord 16 0b00000_0001000_1_0_00 = some (.quD 8 0) := by decide
theorem test_decode_qszD : decodeTableWord 16 0b00000_0010000_1_0_01 = some (.qszD 16 0) := by decide
theorem test_decode_qsnD : decodeTableWord 16 0b00000_1111111_1_0_10 = some (.qsnD 127 0) := by decide
theorem test_decode_dquD : decodeTableWord 16 0b00000_0000000_1_1_00 = some (.dquD 0 0) := by decide
theorem test_decode_dqszD : decodeTableWord 16 0b00000_1010101_1_1_01 = some (.dqszD 85 0) := by decide
theorem test_decode_dqsnD : decodeTableWord 16 0b00000_0001000_1_1_10 = some (.dqsnD 8 0) := by decide

/-- R67: the four reserved opcodes. -/
theorem test_decode_reserved_codec :
    decodeTableWord 16 0x0083 = none ∧ decodeTableWord 16 0x0087 = none ∧
    decodeTableWord 16 0x008B = none ∧ decodeTableWord 16 0x008F = none := by decide

/-- R68: each reserved bit alone. -/
theorem test_decode_reserved_bits :
    decodeTableWord 16 0x0880 = none ∧ decodeTableWord 16 0x1080 = none ∧
    decodeTableWord 16 0x2080 = none ∧ decodeTableWord 16 0x4080 = none ∧
    decodeTableWord 16 0x8080 = none := by decide

/-- The command words R66 prints. -/
theorem test_encode_examples :
    (encode (.quD 8 0)).cmd = 0x0088#16 ∧ (encode (.dqsnD 8 0)).cmd = 0x008E#16 ∧
    (encode (.qszS 64 0)).cmd = 0x0401#16 := by decide

/-- A table word that reaches above the command carries the operand there (log entry 2). -/
theorem test_decode_with_operand :
    decodeTableWord 80 (0x3FF0000000000000 * 2 ^ 16 + 0x0088) = some (.quD 8 0x3FF0000000000000#64) := by
  decide

/-! ### One step per request (spec/95_test_vectors.md; the comment gives the vector's line) -/

-- E8: `QU.S 32, 1.0`
theorem test_quS_one : stepped (waiting 0x0200#16 0x3F800000#64) = answered (.ok 0xFFFFFFFF#64) := by
  decide +kernel
-- `QU.S 8, 0.3`: 77, where the binary64 value gives 76
theorem test_quS_rounds : stepped (waiting 0x0080#16 0x3E99999A#64) = answered (.ok 0x4D#64) := by
  decide +kernel
-- `QSZ.S 8, 0xFFFFFFFFBF800000`: the upper half is ignored
theorem test_qszS_upper_half :
    stepped (waiting 0x0081#16 0xFFFFFFFFBF800000#64) = answered (.ok 0xFFFFFFFFFFFFFF81#64) := by
  decide +kernel
-- `QSZ.S 8, 0x000000007F800001`: a signalling NaN
theorem test_qszS_nan : stepped (waiting 0x0081#16 0x7F800001#64) = answered (.fault .operandNan) := by
  decide +kernel
-- `QSN.S 8, -0.3`
theorem test_qsnS_rounds :
    stepped (waiting 0x0082#16 0xBE99999A#64) = answered (.ok 0xFFFFFFFFFFFFFFD9#64) := by decide +kernel
-- `QSN.S 8, 0x7FF8000000000000`: the low half is 0.0, a tie
theorem test_qsnS_zero_tie :
    stepped (waiting 0x0082#16 0x7FF8000000000000#64) = answered (.ok 0xFFFFFFFFFFFFFFFF#64) := by
  decide +kernel
-- `DQU.S 8, 77`
theorem test_dquS_value : stepped (waiting 0x0084#16 77#64) = answered (.ok 0x3E9A9A9B#64) := by
  decide +kernel
-- `DQU.S 32, 4294967167`: just below the codes that round to 1.0
theorem test_dquS_below_one :
    stepped (waiting 0x0204#16 0xFFFFFF7F#64) = answered (.ok 0x3F7FFFFF#64) := by decide +kernel
-- `DQSZ.S 64, -9223372036854775808`: the extra negative code
theorem test_dqszS_extra_code :
    stepped (waiting 0x0405#16 0x8000000000000000#64) = answered (.ok 0xBF800000#64) := by decide +kernel
-- `DQSZ.S 2, -3`
theorem test_dqszS_code_range :
    stepped (waiting 0x0025#16 0xFFFFFFFFFFFFFFFD#64) = answered (.fault .codeRange) := by decide +kernel
-- `DQSN.S 8, -1`
theorem test_dqsnS_value :
    stepped (waiting 0x0086#16 0xFFFFFFFFFFFFFFFF#64) = answered (.ok 0xBB808081#64) := by decide +kernel
-- `DQSN.S 0, 0`
theorem test_dqsnS_width : stepped (waiting 0x0006#16 0#64) = answered (.fault .widthRange) := by
  decide +kernel
-- `QU.D 24, 0.3`
theorem test_quD_value :
    stepped (waiting 0x0188#16 0x3FD3333333333333#64) = answered (.ok 0x4CCCCC#64) := by decide +kernel
-- `QU.D 8, inf`
theorem test_quD_infinity : stepped (waiting 0x0088#16 0x7FF0000000000000#64) = answered (.ok 0xFF#64) := by
  decide +kernel
-- `QSZ.D 8, -1.004`: the extra code, reached only outside the domain
theorem test_qszD_extra_code :
    stepped (waiting 0x0089#16 0xBFF010624DD2F1AA#64) = answered (.ok 0xFFFFFFFFFFFFFF80#64) := by
  decide +kernel
-- `QSZ.D 2, -0.5`: a tie
theorem test_qszD_tie :
    stepped (waiting 0x0029#16 0xBFE0000000000000#64) = answered (.ok 0xFFFFFFFFFFFFFFFF#64) := by
  decide +kernel
-- `QSN.D 64, 0.3`
theorem test_qsnD_value :
    stepped (waiting 0x040A#16 0x3FD3333333333333#64) = answered (.ok 0x26666666666665FF#64) := by
  decide +kernel
-- `QSN.D 8, -2.0`
theorem test_qsnD_clamps :
    stepped (waiting 0x008A#16 0xC000000000000000#64) = answered (.ok 0xFFFFFFFFFFFFFF80#64) := by
  decide +kernel
-- `DQU.D 8, 3`
theorem test_dquD_value :
    stepped (waiting 0x008C#16 3#64) = answered (.ok 0x3F88181818181818#64) := by decide +kernel
-- `DQU.D 8, 0x8000000000000000`: read as an unsigned integer
theorem test_dquD_code_range :
    stepped (waiting 0x008C#16 0x8000000000000000#64) = answered (.fault .codeRange) := by decide +kernel
-- `DQSZ.D 8, 1`
theorem test_dqszD_value :
    stepped (waiting 0x008D#16 1#64) = answered (.ok 0x3F80204081020408#64) := by decide +kernel
-- `DQSZ.D 64, 9223372036854775806`: rounds to 1.0
theorem test_dqszD_rounds_up :
    stepped (waiting 0x040D#16 0x7FFFFFFFFFFFFFFE#64) = answered (.ok 0x3FF0000000000000#64) := by
  decide +kernel
-- `DQSN.D 3, 2`
theorem test_dqsnD_value :
    stepped (waiting 0x003E#16 2#64) = answered (.ok 0x3FE6DB6DB6DB6DB7#64) := by decide +kernel
-- `DQSN.D 64, -1`
theorem test_dqsnD_nearest_zero :
    stepped (waiting 0x040E#16 0xFFFFFFFFFFFFFFFF#64) = answered (.ok 0xBBF0000000000000#64) := by
  decide +kernel

/-- R219: both a reserved opcode and a bad width: the command is checked first. -/
theorem test_illegal_before_width :
    stepped (waiting 0x0013#16 0x7FF8000000000000#64) = answered (.fault .illegalCommand) := by
  decide +kernel

/-- A word placed by `withFetchWord` runs before what waits. -/
theorem test_withFetchWord :
    stepped ((waiting 0x0003#16 5#64).withFetchWord 16 0x0081) =
      some { requests := [⟨0x0003#16, 5#64⟩], responses := [.ok 0#64] } := by decide +kernel

/-! ### Witnesses: for each statement with hypotheses, data that meet them together

The name is `witness_<statement>`; a statement with several clauses has one conjunct per clause, in the
order of the clauses. -/

theorem witness_EncodedInstructionDecodesBack :
    (Instr.dqsnD 127 0xFFFFFFFFFFFFFFFF#64).WellFormed ∧ (Instr.quS 0 0#64).WellFormed := by decide

theorem witness_DecodedRequestEncodesBack : decode ⟨0x0401#16, 7#64⟩ = .ok (.qszS 64 7#64) := by rfl

theorem witness_OpcodeMatchSelectsOperation :
    (0x07FF#16).extractLsb 3 0 ∈ [0x3#4, 0x7#4, 0xB#4, 0xF#4] ∧ (Instr.dqsnD 127 0#64).WellFormed := by
  decide

theorem witness_StepRunsDecodedInstruction :
    (waiting 0x008C#16 255#64).requests = ⟨0x008C#16, 255#64⟩ :: [] ∧
    decode ⟨0x008C#16, 255#64⟩ = .ok (.dquD 8 255#64) := by exact ⟨rfl, rfl⟩

theorem witness_PlacedWordRunsNext : decodeTableWord 16 0x0089 = some (.qszD 8 0#64) := by decide

theorem witness_EveryRequestAnsweredByTheSkeleton :
    (waiting 0xFFFF#16 1#64).requests = ⟨0xFFFF#16, 1#64⟩ :: [] := rfl

theorem witness_StepKeepsAnswersInOrder :
    AnswersInOrder [⟨0x0003#16, 1#64⟩] (waiting 0x0003#16 1#64) ∧
    step (waiting 0x0003#16 1#64) = .next { requests := [], responses := [.fault .illegalCommand] } :=
  ⟨⟨[], rfl, rfl⟩, rfl⟩

theorem witness_BlockWaitsWithoutRequest : State.reset.requests = [] := rfl

theorem witness_FaultPriority :
    ¬ LegalCommand 0x0800#16 ∧ ¬ LegalCommand 0x0003#16 ∧
    (LegalCommand 0x0218#16 ∧ ¬ WidthInRange 0x0218#16) ∧
    (LegalCommand 0x0411#16 ∧ ¬ WidthInRange 0x0411#16) ∧
    (LegalCommand 0x0208#16 ∧ WidthInRange 0x0208#16 ∧
      decode ⟨0x0208#16, 0x7FF0000000000001#64⟩ = .ok (.quD 32 0x7FF0000000000001#64) ∧
      (Instr.quD 32 0x7FF0000000000001#64).dir = .encode ∧
      fclass .d (floatOperand .d 0x7FF0000000000001#64) = .nan ∧
      fclass .d (floatOperand .d 0x7FF0000000000000#64) ≠ .nan) ∧
    (LegalCommand 0x002E#16 ∧ WidthInRange 0x002E#16 ∧
      decode ⟨0x002E#16, 2#64⟩ = .ok (.dqsnD 2 2#64) ∧ (Instr.dqsnD 2 2#64).dir = .decode ∧
      ¬ IsCode .sn 2 (readCode .sn 2#64) ∧ IsCode .sn 2 (readCode .sn 1#64)) := by
  refine ⟨by decide, by decide, by decide, by decide, ⟨by decide, by decide, rfl, rfl, ?_, ?_⟩,
    ⟨by decide, by decide, rfl, rfl, ?_, ?_⟩⟩ <;> decide +kernel

theorem witness_CodeRangeResponse : 2 ≤ 2 ∧ 2 ≤ 64 ∧ 2 ^ 2 - 1 < (4#64).toNat ∧
    (4#64).toInt > 2 ^ (2 - 1) - 1 := by decide

theorem witness_FaultLeavesNoTrace :
    transact Config.params ⟨0x0803#16, 5#64⟩ = .fault .illegalCommand ∧
    transact Config.params ⟨0x0024#16, 4#64⟩ = .fault .codeRange ∧
    (State.mk [⟨0x0803#16, 5#64⟩, ⟨0x0088#16, 6#64⟩] []).requests =
      ⟨0x0803#16, 5#64⟩ :: ⟨0x0088#16, 6#64⟩ :: [] ∧
    (State.mk [⟨0x0024#16, 4#64⟩, ⟨0x0803#16, 5#64⟩, ⟨0x0000#16, 0#64⟩] []).requests =
      ⟨0x0024#16, 4#64⟩ :: ⟨0x0803#16, 5#64⟩ :: [⟨0x0000#16, 0#64⟩] := by decide +kernel

theorem witness_UnsignedEncodeResult :
    (2 ≤ 2 ∧ 32 ≤ 32) ∧ fclass .s (floatOperand .s 0xFFFFFFFF3F800000#64) = .finite ∧
    fclass .s (floatOperand .s 0x7F800000#64) = .posInf ∧
    fclass .d (floatOperand .d 0x0000000000000001#64) = .finite ∧
    fclass .d (floatOperand .d 0xFFF0000000000000#64) = .negInf := by decide

theorem witness_SignedEncodeResults :
    (2 ≤ 2 ∧ 64 ≤ 64) ∧ fclass .s (floatOperand .s 0xBF800000#64) ≠ .nan ∧
    fclass .s (floatOperand .s 0xFF800000#64) ≠ .nan ∧
    fclass .d (floatOperand .d 0xBFF0000000000000#64) ≠ .nan ∧
    fclass .d (floatOperand .d 0x7FF0000000000000#64) ≠ .nan := by decide

theorem witness_UnsignedDecodeResult :
    (3#64).toNat ≤ 2 ^ 2 - 1 ∧ (4294967295#64).toNat ≤ 2 ^ 32 - 1 := by decide

theorem witness_SignedDecodeResults :
    (-(2 ^ (2 - 1)) ≤ (0xFFFFFFFFFFFFFFFE#64).toInt ∧ (0xFFFFFFFFFFFFFFFE#64).toInt ≤ 2 ^ (2 - 1) - 1) ∧
    -(2 ^ (64 - 1)) ≤ (0x7FFFFFFFFFFFFFFF#64).toInt ∧
      (0x7FFFFFFFFFFFFFFF#64).toInt ≤ 2 ^ (64 - 1) - 1 := by decide

/-- An instruction answers what one step from an empty block shows. -/
theorem answers_enc_of {c : Codec} {F : Fmt} {w : Nat} {v : PortWord} {r : Response}
    (h : encodeOp Config.params c F w v = r) : Answers (enc c F w v) r :=
  fun s => h ▸ exec_enc c F w v s

/-- The same for a decode. -/
theorem answers_dec_of {c : Codec} {F : Fmt} {w : Nat} {v : PortWord} {r : Response}
    (h : decodeOp Config.params c F w v = r) : Answers (dec c F w v) r :=
  fun s => h ▸ exec_dec c F w v s

theorem witness_ResultPlacement :
    Answers (enc .u .s 32 0x3F800000#64) (.ok 0xFFFFFFFF#64) ∧
    Answers (enc .sz .d 64 0xBFF0000000000000#64) (.ok 0x8000000000000001#64) ∧
    Answers (dec .sn .s 2 0xFFFFFFFFFFFFFFFE#64) (.ok 0xBF800000#64) ∧
    Answers (dec .u .d 2 3#64) (.ok 0x3FF0000000000000#64) :=
  ⟨answers_enc_of (by decide +kernel), answers_enc_of (by decide +kernel),
    answers_dec_of (by decide +kernel), answers_dec_of (by decide +kernel)⟩

theorem witness_SkeletonProperties :
    Config.params.Legal ∧ (Params.mk 64 2 .even).Legal ∧
    ((0x0080#16).getLsbD 3 = false ∧ (0x0080#16).getLsbD 2 = false ∧
      (0xDEADBEEF3F800000#64).extractLsb 31 0 = (0x3F800000#64).extractLsb 31 0) ∧
    transact Config.params ⟨0x0089#16, 0xBFF0000000000000#64⟩ = .ok 0xFFFFFFFFFFFFFF81#64 ∧
    ((0x0084#16).getLsbD 2 = true ∧ (0x0084#16).extractLsb 1 0 = 0#2 ∧
      transact Config.params ⟨0x0084#16, 255#64⟩ = .ok 0x3F800000#64) := by decide +kernel

theorem witness_RoundingPrimitive :
    (0 : ℚ) ≤ 0 ∧ (-1 / 2 : ℚ) < 0 ∧ (-1 / 2 : ℚ) ≤ 1 / 2 ∧
    ((3 : ℤ) ≠ rndEven (5 / 2) ∧ |((3 : ℤ) : ℚ) - 5 / 2| = |(rndEven (5 / 2) : ℚ) - 5 / 2|) := by
  decide +kernel

theorem witness_TieRuleMattersOnlyAtListedInputs :
    (FiniteOn .s 0x80000000#64 ∧ valueOn .s 0x80000000#64 = 0) ∧
    (FiniteOn .d 0x3FE0000000000000#64 ∧ valueOn .d 0x3FE0000000000000#64 = 1 / 2) ∧
    (FiniteOn .d 0xBFE0000000000000#64 ∧ valueOn .d 0xBFE0000000000000#64 = -1 / 2) ∧
    (FiniteOn .d 0x3FF8000000000000#64 ∧ 1 < valueOn .d 0x3FF8000000000000#64 ∧
      scale .u 2 (valueOn .d 0x3FF8000000000000#64) -
        ⌊scale .u 2 (valueOn .d 0x3FF8000000000000#64)⌋ = 1 / 2) ∧
    (valueOn .d 0xBFE0000000000000#64 < 0 ∧
      scale .u 2 (valueOn .d 0xBFE0000000000000#64) -
        ⌊scale .u 2 (valueOn .d 0xBFE0000000000000#64)⌋ = 1 / 2) := by decide +kernel

theorem witness_ClampActsOnlyOutOfDomain :
    InDomain .u (valueOn .s 0x3F800000#64) ∧ InDomain .sz (valueOn .s 0xBF800000#64) ∧
    InDomain .sn (valueOn .s 0xBF800000#64) ∧
    (FiniteOn .s 0x3F800001#64 ∧ 1 < valueOn .s 0x3F800001#64) ∧
    (FiniteOn .s 0x80000001#64 ∧ valueOn .s 0x80000001#64 < 0) ∧
    (FiniteOn .s 0xBF800001#64 ∧ valueOn .s 0xBF800001#64 < -1) ∧
    fclass .s (floatOperand .s 0x7F800000#64) = .posInf ∧
    fclass .s (floatOperand .s 0xFF800000#64) = .negInf := by
  unfold InDomain; decide +kernel

theorem witness_RoundToFloatIsCorrect :
    ((2 : ℚ) ^ (-64 : ℤ) < |1 / (2 ^ 64 - 1)| ∧ |(1 / (2 ^ 64 - 1) : ℚ)| ≤ 1) ∧
    ((2 : ℚ) ^ (-64 : ℤ) < |(-1 : ℚ)| ∧ |(-1 : ℚ)| ≤ 1) ∧
    ((⟨true, 2046, 2 ^ 52 - 1⟩ : FloatFields).Fits .d ∧
      fclass .d ⟨true, 2046, 2 ^ 52 - 1⟩ = .finite) ∧
    fval .d ⟨true, 1023, 0⟩ = -1 := by decide +kernel

theorem witness_DecodeResultRange :
    (LegalWidth Config.params .u 32 ∧ IsCode .u 32 (readCode .u 1#64) ∧ readCode .u 1#64 = 1) ∧
    (LegalWidth Config.params .sz 64 ∧ IsCode .sz 64 (readCode .sz 0xFFFFFFFFFFFFFFFF#64) ∧
      readCode .sz 0xFFFFFFFFFFFFFFFF#64 = -1) ∧
    (LegalWidth Config.params .sn 64 ∧ IsCode .sn 64 (readCode .sn 0#64) ∧ readCode .sn 0#64 = 0) ∧
    unscale .u 32 (readCode .u 0#64) = 0 ∧ unscale .sn 64 (readCode .sn 0#64) ≠ 0 := by decide +kernel

theorem witness_ExtremesRoundTrip : (2 ≤ 2 ∧ 32 ≤ 32) ∧ 2 ≤ 64 ∧ 64 ≤ 64 := by decide

theorem witness_WithoutZeroNeverDecodesToZero :
    2 ≤ 64 ∧ 64 ≤ 64 ∧ IsCode .sn 64 (-(2 ^ 63)) ∧ IsCode .sn 2 1 := by decide

theorem witness_EncodeIsMonotone :
    Config.params.Legal ∧ LegalWidth Config.params .sn 64 ∧
    OperandLe .d 0xFFF0000000000000#64 0x7FF0000000000000#64 ∧
    OperandLe .d 0x0000000000000000#64 0x8000000000000000#64 :=
  ⟨by decide, by decide, trivial, by show valueOn .d _ ≤ valueOn .d _; decide +kernel⟩

theorem witness_RoundTripErrorBound :
    Config.params.Legal ∧ LegalWidth Config.params .sn 64 ∧ FiniteOn .s 0xBF800000#64 ∧
    InDomain .sn (valueOn .s 0xBF800000#64) ∧
    (FiniteOn .d 0#64 ∧ InDomain .sz (valueOn .d 0#64) ∧
      encodeOp Config.params .sz .d 64 0#64 = .ok 0#64 ∧ unscale .sz 64 (readCode .sz 0#64) = 0) ∧
    (FiniteOn .d 0x3FF0000000000000#64 ∧ InDomain .u (valueOn .d 0x3FF0000000000000#64) ∧
      encodeOp Config.params .u .d 2 0x3FF0000000000000#64 = .ok 3#64 ∧
      unscale .u 2 (readCode .u 3#64) ≠ 0) := by
  unfold InDomain; decide +kernel

theorem witness_ExactErrorBound :
    FiniteOn .d 0x3FE0000000000000#64 ∧ InDomain .u (valueOn .d 0x3FE0000000000000#64) ∧
    |unscale .u 2 2 - valueOn .d 0x3FE0000000000000#64| = oneStep .u 2 / 2 := by
  unfold InDomain; decide +kernel

theorem witness_QuantizationStep :
    2 ≤ 2 ∧ lo .sz 2 < -1 ∧ (-1 : ℤ) ≠ 0 ∧ (1 : ℤ) ≠ 0 := by decide

theorem witness_DecodeIsMonotone :
    Config.params.Legal ∧ LegalWidth Config.params .sz 64 ∧ IsCode .sz 64 (lo .sz 64) ∧
    IsCode .sz 64 (lo .sz 64 + 1) ∧ lo .sz 64 < lo .sz 64 + 1 := by decide

theorem witness_CodeRoundTrip :
    IsCode .u 24 (2 ^ 24 - 1) ∧ IsCode .sz 25 (lo .sz 25) ∧ IsCode .sn 25 (2 ^ 24 - 1) ∧
    IsCode .u 32 (2 ^ 32 - 1) ∧ IsCode .sz 54 (-(2 ^ 53)) ∧ IsCode .sn 54 (2 ^ 53 - 1) ∧
    (24 ≤ roundTripWidth .s .u ∧ 25 ≤ roundTripWidth .s .sz ∧ 25 ≤ roundTripWidth .s .sn ∧
      32 ≤ roundTripWidth .d .u ∧ 54 ≤ roundTripWidth .d .sz ∧ 54 ≤ roundTripWidth .d .sn) ∧
    (roundTripWidth .s .u < 25 ∧ 25 ≤ wmax Config.params .u) ∧
    (roundTripWidth .d .sn < 55 ∧ 64 ≤ wmax Config.params .sn) := by decide

theorem witness_UnsignedEncodeCorners :
    fclass .s (floatOperand .s 0x7F800000#64) = .posInf ∧
    fclass .s (floatOperand .s 0xFF800000#64) = .negInf ∧
    (FiniteOn .s 0x80000000#64 ∧ valueOn .s 0x80000000#64 ≤ 0) ∧
    (FiniteOn .s 0x3F800000#64 ∧ 1 ≤ valueOn .s 0x3F800000#64) ∧
    (floatOperand .s 0x007FFFFF#64).exp = 0 ∧
    (FiniteOn .s 0x3F000000#64 ∧ valueOn .s 0x3F000000#64 = 1 / 2) := by decide +kernel

theorem witness_UnsignedWidthTwo :
    (FiniteOn .s 0x3E2AAAAA#64 ∧ valueOn .s 0x3E2AAAAA#64 < 1 / 6) ∧
    (FiniteOn .s 0x3E2AAAAB#64 ∧ 1 / 6 < valueOn .s 0x3E2AAAAB#64 ∧ valueOn .s 0x3E2AAAAB#64 < 1 / 2) ∧
    (FiniteOn .s 0x3F000000#64 ∧ 1 / 2 ≤ valueOn .s 0x3F000000#64 ∧ valueOn .s 0x3F000000#64 < 5 / 6) ∧
    (FiniteOn .s 0x3F555556#64 ∧ 5 / 6 < valueOn .s 0x3F555556#64) := by decide +kernel

theorem witness_UnsignedDoubleDecodeStrict :
    (0xFFFFFFFE#64).toNat < (0xFFFFFFFF#64).toNat ∧ (0xFFFFFFFF#64).toNat ≤ 2 ^ 32 - 1 := by decide

theorem witness_ExtraNegativeCode :
    (FiniteOn .d 0xBFF0000000000000#64 ∧ InDomain .sz (valueOn .d 0xBFF0000000000000#64)) ∧
    (IsCode .sz 2 (-2) ∧ Answers (dec .sz .d 2 (widen (-2))) (.ok 0xBFF0000000000000#64)) ∧
    (IsCode .sz 2 0 ∧ Answers (dec .sz .d 2 (widen 0)) (.ok 0#64)) := by
  unfold InDomain
  exact ⟨by decide +kernel, ⟨by decide, answers_dec_of (by decide +kernel)⟩,
    ⟨by decide, answers_dec_of (by decide +kernel)⟩⟩

theorem witness_WithoutZeroSymmetry :
    (FiniteOn .s 0x80000000#64 ∧ valueOn .s 0x80000000#64 = 0) ∧
    (FiniteOn .s 0x3F800000#64 ∧ InDomain .sn (valueOn .s 0x3F800000#64) ∧
      valueOn .s 0x3F800000#64 ≠ 0) ∧
    IsCode .sn 64 (-(2 ^ 63)) := by
  unfold InDomain; decide +kernel

theorem witness_WithoutZeroWidthTwo :
    (FiniteOn .s 0xBF800000#64 ∧ -1 ≤ valueOn .s 0xBF800000#64 ∧ valueOn .s 0xBF800000#64 < -2 / 3) ∧
    (FiniteOn .s 0xBF2AAAAA#64 ∧ -2 / 3 < valueOn .s 0xBF2AAAAA#64 ∧ valueOn .s 0xBF2AAAAA#64 < 0) ∧
    (FiniteOn .s 0#64 ∧ valueOn .s 0#64 = 0) ∧
    (FiniteOn .s 0x3F2AAAAA#64 ∧ 0 < valueOn .s 0x3F2AAAAA#64 ∧ valueOn .s 0x3F2AAAAA#64 < 2 / 3) ∧
    (FiniteOn .s 0x3F800000#64 ∧ 2 / 3 < valueOn .s 0x3F800000#64 ∧ valueOn .s 0x3F800000#64 ≤ 1) := by
  decide +kernel

end Sys2Proof.Machine
end

section
/-! # The response of an instruction and of a request (spec/10_state.md R20, R24; spec/20_memory.md R46)

`opResponse` is the response that the three fields, the width and the operand choose, before any state is
looked at. Both readings of the spec meet in it: `exec` delivers it (`answers_instrResponse`), and R108's
`transact` computes it from the raw bits (`transact_of_decode_ok`). -/

namespace Sys2Proof.Machine

/-- The response of the operation that the fields select, under any parameters (steps 2 and 3 of R108). -/
def opResponse (p : Params) (c : Codec) (dir : Dir) (F : Fmt) (w : Nat) (v : PortWord) : Response :=
  match dir with
  | .encode => encodeOp p c F w v
  | .decode => decodeOp p c F w v

/-- The response of an instruction under this hardware's parameters. -/
def instrResponse (i : Instr) : Response :=
  opResponse Config.params i.codec i.dir i.fmt i.width i.operand

@[simp] theorem opResponse_encode (p : Params) (c : Codec) (F : Fmt) (w : Nat) (v : PortWord) :
    opResponse p c .encode F w v = encodeOp p c F w v := rfl

@[simp] theorem opResponse_decode (p : Params) (c : Codec) (F : Fmt) (w : Nat) (v : PortWord) :
    opResponse p c .decode F w v = decodeOp p c F w v := rfl

theorem instrResponse_ofFields (c : Codec) (dir : Dir) (F : Fmt) (w : Nat) (v : PortWord) :
    instrResponse (.ofFields c dir F w v) = opResponse Config.params c dir F w v := by
  cases c <;> cases dir <;> cases F <;> rfl

theorem answers_ofFields (c : Codec) (dir : Dir) (F : Fmt) (w : Nat) (v : PortWord) :
    Answers (.ofFields c dir F w v) (opResponse Config.params c dir F w v) := by
  cases dir with
  | encode => exact answers_enc_of rfl
  | decode => exact answers_dec_of rfl

theorem answers_instrResponse (i : Instr) : Answers i (instrResponse i) := by
  have h := answers_ofFields i.codec i.dir i.fmt i.width i.operand
  rwa [ofFields_fields] at h

/-- Settles O9: the response is `instrResponse`, and no other is answered after reset. -/
theorem instructionAnswersAlikeInEveryState : Obligations.InstructionAnswersAlikeInEveryState :=
  fun i => ⟨instrResponse i, answers_instrResponse i,
    fun _ h => answers_unique h (answers_instrResponse i)⟩

/-! ### The decoder's fields as R108 reads them from the raw bits -/

/-- A one-bit field holds that bit. -/
theorem extractLsb'_one_eq_ofBool {n : Nat} (x : BitVec n) (k : Nat) :
    x.extractLsb' k 1 = BitVec.ofBool (x.getLsbD k) := by
  ext j hj
  obtain rfl : j = 0 := Nat.lt_one_iff.1 hj
  simp

theorem fmtOfBit_cmdFmt (cmd : CmdWord) :
    fmtOfBit (cmdFmt cmd) = if cmd.getLsbD 3 then .d else .s := by
  have bit : cmd.extractLsb 3 3 = BitVec.ofBool (cmd.getLsbD 3) := extractLsb'_one_eq_ofBool cmd 3
  rw [fmtOfBit, cmdFmt, bit]
  cases cmd.getLsbD 3 <;> rfl

theorem dirOfBit_cmdDir (cmd : CmdWord) :
    dirOfBit (cmdDir cmd) = if cmd.getLsbD 2 = false then .encode else .decode := by
  have bit : cmd.extractLsb 2 2 = BitVec.ofBool (cmd.getLsbD 2) := extractLsb'_one_eq_ofBool cmd 2
  rw [dirOfBit, cmdDir, bit]
  cases cmd.getLsbD 2 <;> rfl

theorem codecOfBits_eq_none : ∀ {b : BitVec 2}, codecOfBits b = none → b = 3#2 := by decide

theorem codecOfBits_eq_some : ∀ {b : BitVec 2} {c : Codec}, codecOfBits b = some c →
    b ≠ 3#2 ∧ (if b = 0#2 then .u else if b = 1#2 then .sz else .sn) = c := by
  intro b c
  cases c <;> revert b <;> decide

theorem wmax_eq_ite (p : Params) (c : Codec) : (if c = .u then p.wmaxU else p.wmaxS) = wmax p c := by
  cases c <;> rfl

theorem readCode_eq_ite (c : Codec) (v : PortWord) :
    (if c = .u then (v.toNat : ℤ) else v.toInt) = readCode c v := by
  cases c <;> rfl

/-! ### R108 and the decoder agree -/

/-- The three ways of the decoder, in the order of R71. -/
theorem decode_cases (r : Request) :
    (cmdRsv r.cmd ≠ 0#5 ∧ Sys2Proof.decode r = .error .reservedBits) ∨
    (codecOfBits (cmdCodec r.cmd) = none ∧ Sys2Proof.decode r = .error .reservedCodec) ∨
    (∃ c, cmdRsv r.cmd = 0#5 ∧ codecOfBits (cmdCodec r.cmd) = some c ∧
      Sys2Proof.decode r = .ok (.ofFields c (dirOfBit (cmdDir r.cmd)) (fmtOfBit (cmdFmt r.cmd))
        (cmdWidth r.cmd) r.operand)) := by
  unfold Sys2Proof.decode
  by_cases hrsv : cmdRsv r.cmd = 0#5
  · rw [if_neg (not_not.2 hrsv)]
    cases hc : codecOfBits (cmdCodec r.cmd) with
    | none => exact .inr (.inl ⟨rfl, rfl⟩)
    | some c => exact .inr (.inr ⟨c, hrsv, rfl, rfl⟩)
  · exact .inl ⟨hrsv, if_pos hrsv⟩

theorem transact_of_decode_error {p : Params} {r : Request} {e : IllegalCommand}
    (h : Sys2Proof.decode r = .error e) : transact p r = .fault .illegalCommand := by
  obtain ⟨hrsv, -⟩ | ⟨hc, -⟩ | ⟨c, -, -, hd⟩ := decode_cases r
  · exact if_pos (.inl hrsv)
  · exact if_pos (.inr (codecOfBits_eq_none hc))
  · cases h.symm.trans hd

theorem transact_of_codec (p : Params) {r : Request} {c : Codec} (hrsv : cmdRsv r.cmd = 0#5)
    (hc : codecOfBits (cmdCodec r.cmd) = some c) :
    transact p r =
      opResponse p c (dirOfBit (cmdDir r.cmd)) (fmtOfBit (cmdFmt r.cmd)) (cmdWidth r.cmd) r.operand := by
  obtain ⟨hlegal, hcodec⟩ := codecOfBits_eq_some hc
  have hdecodes : ¬ (r.cmd.extractLsb 15 11 ≠ 0#5 ∨ r.cmd.extractLsb 1 0 = 3#2) :=
    not_or.2 ⟨not_not.2 hrsv, hlegal⟩
  rw [cmdCodec] at hcodec
  rw [transact, if_neg hdecodes, dirOfBit_cmdDir, fmtOfBit_cmdFmt, cmdWidth]
  simp only [hcodec, wmax_eq_ite, readCode_eq_ite]
  generalize (r.cmd.extractLsb 10 4).toNat = w
  generalize (if r.cmd.getLsbD 3 = true then Fmt.d else Fmt.s) = F
  by_cases hw : LegalWidth p c w
  · rw [if_neg (by omega)]
    by_cases hdir : r.cmd.getLsbD 2 = false
    · rw [if_pos hdir, if_pos hdir, opResponse_encode, encodeOp, if_pos hw, quantize]
      cases fclass F (floatOperand F r.operand) <;> rfl
    · rw [if_neg hdir, if_neg hdir, opResponse_decode, decodeOp, if_pos hw]
      by_cases hcode : IsCode c w (readCode c r.operand)
      · rw [if_pos hcode, if_neg (by omega)]
      · rw [if_neg hcode, if_pos (by omega)]
  · rw [if_pos (by omega)]
    split_ifs <;> exact (if_neg hw).symm

theorem transact_of_decode_ok {r : Request} {i : Instr} (h : Sys2Proof.decode r = .ok i) :
    transact Config.params r = instrResponse i := by
  obtain ⟨-, hd⟩ | ⟨-, hd⟩ | ⟨c, hrsv, hc, hd⟩ := decode_cases r
  · cases h.symm.trans hd
  · cases h.symm.trans hd
  · obtain rfl := Except.ok.inj (h.symm.trans hd)
    rw [transact_of_codec _ hrsv hc, instrResponse_ofFields]

/-! ### A run answers the waiting requests in order -/

/-- One step answers the oldest waiting request with R108's response and changes nothing else. -/
theorem responds_transact (r : Request) : Responds r (transact Config.params r) := by
  intro s rest hs
  obtain ⟨hnil, -⟩ | ⟨r', rest', e, hcons, hd, hstep⟩ | ⟨r', rest', i, hcons, hd, hstep⟩ :=
    step_cases s
  · rw [hs] at hnil; cases hnil
  · obtain ⟨rfl, rfl⟩ := List.cons.inj (hs.symm.trans hcons)
    rw [hstep, transact_of_decode_error hd]; rfl
  · obtain ⟨rfl, rfl⟩ := List.cons.inj (hs.symm.trans hcons)
    rw [hstep, transact_of_decode_ok hd, answers_instrResponse i]

/-- Settles O10, by induction on the waiting requests, for all earlier responses at once. -/
theorem runAnswersRequestsInOrder : Obligations.RunAnswersRequestsInOrder := by
  intro requests
  induction requests with
  | nil => intro earlier; rw [List.map_nil, List.append_nil]; rfl
  | cons r rest ih =>
    intro earlier
    have hstep := responds_transact r (State.mk (r :: rest) earlier) rest rfl
    calc Sys2Proof.core.run (rest.length + 1) (State.mk (r :: rest) earlier)
        = Sys2Proof.core.run rest.length (State.mk rest (earlier ++ [transact Config.params r])) :=
          run_of_step _ hstep
      _ = .next (State.mk [] (earlier ++ [transact Config.params r] ++
            rest.map (transact Config.params))) := ih _
      _ = .next (State.mk [] (earlier ++ (r :: rest).map (transact Config.params))) := by
          rw [List.append_assoc]; rfl

end Sys2Proof.Machine
end

section
/-! # Every step keeps the responses in the order of the requests (spec/20_memory.md R46)

A step that answers a next state either waits or answers the oldest waiting request with R108's response
(`step_eq_next_cases`); answering moves that request from the waiting ones to the end of the answered
ones (`AnswersInOrder.answer`). -/

namespace Sys2Proof.Machine

/-- The two ways of a step that answers a next state, with R108's response in place of the decoder's and
the instructions' branches. -/
theorem step_eq_next_cases {s t : State} (h : step s = .next t) :
    (s.requests = [] ∧ t = s) ∨
    (∃ r rest, s.requests = r :: rest ∧
      t = { requests := rest, responses := s.responses ++ [transact Config.params r] }) := by
  cases hs : s.requests with
  | nil =>
    have hwait : step s = .next s := by rw [step, fetch_of_nil hs]
    exact .inl ⟨rfl, Host.Outcome.next.inj (h.symm.trans hwait)⟩
  | cons r rest =>
    have hanswer := responds_transact r s rest hs
    exact .inr ⟨r, rest, rfl, Host.Outcome.next.inj (h.symm.trans hanswer)⟩

/-- Answering the oldest waiting request with R108's response keeps the invariant: that request is now
the last of the answered ones. -/
theorem AnswersInOrder.answer {all : List Request} {s : State} {r : Request} {rest : List Request}
    (h : AnswersInOrder all s) (hs : s.requests = r :: rest) :
    AnswersInOrder all
      { requests := rest, responses := s.responses ++ [transact Config.params r] } := by
  obtain ⟨answered, hall, hresponses⟩ := h
  refine ⟨answered ++ [r], ?_, ?_⟩
  · rw [hall, hs, List.append_cons]
  · rw [hresponses, List.map_append, List.map_singleton]

/-- Settles O11: a waiting step keeps the state, and an answering one keeps the invariant. -/
theorem stepKeepsAnswersInOrder : Obligations.StepKeepsAnswersInOrder := by
  intro all s t hinv hstep
  obtain ⟨-, rfl⟩ | ⟨r, rest, hs, rfl⟩ := step_eq_next_cases hstep
  · exact hinv
  · exact hinv.answer hs

end Sys2Proof.Machine
end

section
/-! # The decoder and the encoder undo each other (spec/30_encoding.md R61, R63, R66, R71)

Decoding reads the fields of the command one by one (`decode_eq_ok_iff_fields`). The three orthogonal
fields `CODEC`, `DIR` and `FMT` are the four bits of the opcode, and each opcode in use names one triple
of them (`eq_fieldsOpcode_iff`), so that a request decodes to an instruction exactly when its reserved
bits are zero and its opcode, width and operand are the instruction's (`decode_eq_ok_iff`). Every
statement about the decoder below goes through these. -/

namespace Sys2Proof

/-! ### The opcode that the fields select -/

/-- The opcode of the operation with the given codec, direction and format (the table of R66). -/
def fieldsOpcode (c : Codec) (dir : Dir) (F : Fmt) : BitVec 4 := (Instr.ofFields c dir F 0 0#64).opc

@[simp] theorem codec_ofFields (c : Codec) (dir : Dir) (F : Fmt) (w : Nat) (v : PortWord) :
    (Instr.ofFields c dir F w v).codec = c := by
  cases c <;> cases dir <;> cases F <;> rfl

@[simp] theorem dir_ofFields (c : Codec) (dir : Dir) (F : Fmt) (w : Nat) (v : PortWord) :
    (Instr.ofFields c dir F w v).dir = dir := by
  cases c <;> cases dir <;> cases F <;> rfl

@[simp] theorem fmt_ofFields (c : Codec) (dir : Dir) (F : Fmt) (w : Nat) (v : PortWord) :
    (Instr.ofFields c dir F w v).fmt = F := by
  cases c <;> cases dir <;> cases F <;> rfl

@[simp] theorem width_ofFields (c : Codec) (dir : Dir) (F : Fmt) (w : Nat) (v : PortWord) :
    (Instr.ofFields c dir F w v).width = w := by
  cases c <;> cases dir <;> cases F <;> rfl

@[simp] theorem operand_ofFields (c : Codec) (dir : Dir) (F : Fmt) (w : Nat) (v : PortWord) :
    (Instr.ofFields c dir F w v).operand = v := by
  cases c <;> cases dir <;> cases F <;> rfl

@[simp] theorem opc_ofFields (c : Codec) (dir : Dir) (F : Fmt) (w : Nat) (v : PortWord) :
    (Instr.ofFields c dir F w v).opc = fieldsOpcode c dir F := by
  cases c <;> cases dir <;> cases F <;> rfl

theorem opc_eq_fieldsOpcode (i : Instr) : i.opc = fieldsOpcode i.codec i.dir i.fmt := by
  cases i <;> rfl

/-- An opcode is that of an operation exactly when its bits name the operation's fields (R61, R66). -/
theorem eq_fieldsOpcode_iff (b : BitVec 4) (c : Codec) (dir : Dir) (F : Fmt) :
    b = fieldsOpcode c dir F ↔
      codecOfBits (b.extractLsb 1 0) = some c ∧ dirOfBit (b.extractLsb 2 2) = dir ∧
      fmtOfBit (b.extractLsb 3 3) = F := by
  cases c <;> cases dir <;> cases F <;> revert b <;> decide

/-- The reserved opcodes of R66 belong to no operation. -/
theorem fieldsOpcode_not_reserved (c : Codec) (dir : Dir) (F : Fmt) :
    fieldsOpcode c dir F ∉ [0x3#4, 0x7#4, 0xB#4, 0xF#4] := by
  cases c <;> cases dir <;> cases F <;> decide

/-! ### The fields of a command word -/

theorem extractLsb_opcode_codec (cmd : CmdWord) :
    (cmd.extractLsb 3 0).extractLsb 1 0 = cmdCodec cmd :=
  BitVec.extractLsb'_extractLsb'_of_le (by decide)

theorem extractLsb_opcode_dir (cmd : CmdWord) : (cmd.extractLsb 3 0).extractLsb 2 2 = cmdDir cmd :=
  BitVec.extractLsb'_extractLsb'_of_le (by decide)

theorem extractLsb_opcode_fmt (cmd : CmdWord) : (cmd.extractLsb 3 0).extractLsb 3 3 = cmdFmt cmd :=
  BitVec.extractLsb'_extractLsb'_of_le (by decide)

theorem cmdWidth_le (cmd : CmdWord) : cmdWidth cmd ≤ 127 :=
  Nat.le_of_lt_succ (cmd.extractLsb 10 4).isLt

theorem append_eq_append_iff {m n : Nat} {a a' : BitVec m} {b b' : BitVec n} :
    a ++ b = a' ++ b' ↔ a = a' ∧ b = b' := by
  constructor
  · intro h
    have hl := congrArg (BitVec.extractLsb' n m) h
    have hr := congrArg (BitVec.extractLsb' 0 n) h
    simp only [BitVec.extractLsb'_append_eq_left, BitVec.extractLsb'_append_eq_right] at hl hr
    exact ⟨hl, hr⟩
  · rintro ⟨rfl, rfl⟩; rfl

/-- The reserved bits, the width and the opcode are all of a command word (R61). -/
theorem cmd_eq_append_fields (cmd : CmdWord) :
    cmd = cmdRsv cmd ++ cmd.extractLsb 10 4 ++ cmd.extractLsb 3 0 := by
  have hhigh : cmdRsv cmd ++ cmd.extractLsb 10 4 = cmd.extractLsb' 4 12 :=
    BitVec.extractLsb'_append_extractLsb'_eq_extractLsb' rfl
  have hall : cmd.extractLsb' 4 12 ++ cmd.extractLsb 3 0 = cmd.extractLsb' 0 16 :=
    BitVec.extractLsb'_append_extractLsb'_eq_extractLsb' rfl
  rw [hhigh, hall, BitVec.extractLsb'_eq_self]

/-- With the reserved bits zero, the encoder's layout of the width and the opcode is the word. -/
theorem cmdWord_of_rsv_zero {cmd : CmdWord} (hrsv : cmdRsv cmd = 0#5) :
    cmdWord (cmdWidth cmd) (cmd.extractLsb 3 0) = cmd := by
  conv_rhs => rw [cmd_eq_append_fields cmd, hrsv]
  rw [cmdWord, cmdWidth, BitVec.ofNat_toNat, BitVec.setWidth_eq]

/-- The mask of R66 keeps the reserved bits and the opcode, and clears the width. -/
theorem cmd_and_mask_eq_iff (cmd : CmdWord) (opc : BitVec 4) :
    cmd &&& 0xF80F#16 = opc.setWidth 16 ↔ cmdRsv cmd = 0#5 ∧ cmd.extractLsb 3 0 = opc := by
  have hmask : 0xF80F#16 = BitVec.allOnes 5 ++ 0#7 ++ BitVec.allOnes 4 := by decide
  have hopc : opc.setWidth 16 = 0#5 ++ 0#7 ++ opc := by revert opc; decide
  have hcmd : cmd &&& 0xF80F#16 = cmdRsv cmd ++ 0#7 ++ cmd.extractLsb 3 0 := by
    conv_lhs => rw [cmd_eq_append_fields cmd, hmask, BitVec.and_append, BitVec.and_append]
    simp only [BitVec.and_allOnes, BitVec.and_zero]
  rw [hcmd, hopc, append_eq_append_iff, BitVec.append_left_inj]

/-! ### Decoding, field by field and by the opcode -/

/-- A request decodes to the instruction whose fields are its own, and to no other (R71). -/
theorem decode_eq_ok_iff_fields (r : Request) (i : Instr) :
    Sys2Proof.decode r = .ok i ↔
      cmdRsv r.cmd = 0#5 ∧
      (codecOfBits (cmdCodec r.cmd) = some i.codec ∧ dirOfBit (cmdDir r.cmd) = i.dir ∧
        fmtOfBit (cmdFmt r.cmd) = i.fmt) ∧
      cmdWidth r.cmd = i.width ∧ r.operand = i.operand := by
  constructor
  · intro h
    obtain ⟨-, hd⟩ | ⟨-, hd⟩ | ⟨c, hrsv, hc, hd⟩ := Machine.decode_cases r
    · cases h.symm.trans hd
    · cases h.symm.trans hd
    · obtain rfl := Except.ok.inj (h.symm.trans hd)
      simp [hrsv, hc]
  · rintro ⟨hrsv, ⟨hc, hdir, hF⟩, hw, hv⟩
    rw [Sys2Proof.decode, if_neg (not_not.2 hrsv), hc, hdir, hF, hw, hv]
    simp only [Machine.ofFields_fields]

/-- A request decodes to an instruction exactly when its reserved bits are zero and its opcode, width and
operand are the instruction's (R66, R71). -/
theorem decode_eq_ok_iff (r : Request) (i : Instr) :
    Sys2Proof.decode r = .ok i ↔
      cmdRsv r.cmd = 0#5 ∧ r.cmd.extractLsb 3 0 = i.opc ∧ cmdWidth r.cmd = i.width ∧
      r.operand = i.operand := by
  rw [decode_eq_ok_iff_fields, opc_eq_fieldsOpcode, eq_fieldsOpcode_iff, extractLsb_opcode_codec,
    extractLsb_opcode_dir, extractLsb_opcode_fmt]

/-- Settles O2: the encoder puts the opcode, the width and the operand where the decoder reads them. -/
theorem encodedInstructionDecodesBack : Obligations.EncodedInstructionDecodesBack := by
  intro i hi
  obtain ⟨-, hrsv, hwidth, hopc, hoperand⟩ := Laws.EncodeLayout.of_wellFormed i hi
  exact (decode_eq_ok_iff _ _).2 ⟨hrsv, hopc, hwidth, hoperand⟩

/-- Settles O3: the fields that decoding reads are all of the request. -/
theorem decodedRequestEncodesBack : Obligations.DecodedRequestEncodesBack := by
  rintro ⟨cmd, v⟩ i h
  obtain ⟨hrsv, hopc, hwidth, hoperand⟩ := (decode_eq_ok_iff _ _).1 h
  dsimp only at hrsv hopc hwidth hoperand
  constructor
  · exact hwidth.symm.trans_le (cmdWidth_le cmd)
  · rw [encode, ← hopc, ← hwidth, ← hoperand, cmdWord_of_rsv_zero hrsv]

/-- Settles O4: an error exactly in the two cases of R71, and otherwise the instruction whose fields the
decoder reads off the raw bits. -/
theorem decodingIsTotal : Obligations.DecodingIsTotal := by
  intro r
  obtain ⟨hrsv, hd⟩ | ⟨hc, hd⟩ | ⟨c, hrsv, hc, hd⟩ := Machine.decode_cases r
  · exact .inl ⟨.inl hrsv, _, hd⟩
  · exact .inl ⟨.inr (Machine.codecOfBits_eq_none hc), _, hd⟩
  · obtain ⟨hlegal, hcodec⟩ := Machine.codecOfBits_eq_some hc
    refine .inr ⟨hrsv, hlegal, _, hd, ?_, ?_, ?_, ?_, ?_, ?_⟩
    · rw [codec_ofFields]; exact hcodec.symm
    · rw [dir_ofFields, Machine.dirOfBit_cmdDir]; cases r.cmd.getLsbD 2 <;> rfl
    · rw [fmt_ofFields, Machine.fmtOfBit_cmdFmt]
    · rw [width_ofFields]; rfl
    · rw [width_ofFields]; exact cmdWidth_le r.cmd
    · rw [operand_ofFields]

/-! ### The rows of the opcode table -/

/-- A row's match under the mask selects the row's operation, with the request's own operand. -/
theorem cmd_and_mask_eq_iff_decode (c : Codec) (dir : Dir) (F : Fmt) (r : Request) :
    r.cmd &&& 0xF80F#16 = (fieldsOpcode c dir F).setWidth 16 ↔
      ∃ w, Sys2Proof.decode r = .ok (.ofFields c dir F w r.operand) := by
  simp only [cmd_and_mask_eq_iff, decode_eq_ok_iff, opc_ofFields, width_ofFields, operand_ofFields]
  constructor
  · rintro ⟨hrsv, hopc⟩
    exact ⟨cmdWidth r.cmd, hrsv, hopc, rfl, trivial⟩
  · rintro ⟨w, hrsv, hopc, -, -⟩
    exact ⟨hrsv, hopc⟩

theorem decode_error_of_reserved_opcode {r : Request}
    (h : r.cmd.extractLsb 3 0 ∈ [0x3#4, 0x7#4, 0xB#4, 0xF#4]) :
    ∃ e, Sys2Proof.decode r = .error e := by
  cases hd : Sys2Proof.decode r with
  | error e => exact ⟨e, rfl⟩
  | ok i =>
    obtain ⟨-, hopc, -⟩ := (decode_eq_ok_iff r i).1 hd
    rw [hopc, opc_eq_fieldsOpcode] at h
    exact absurd h (fieldsOpcode_not_reserved _ _ _)

/-- `CMD = (W << 4) | OPC` as an operation on 16-bit words (R66). -/
theorem cmdWord_eq_shiftLeft_or {w : Nat} (h : w ≤ 127) (opc : BitVec 4) :
    cmdWord w opc = (BitVec.ofNat 16 w <<< 4) ||| opc.setWidth 16 := by
  have hhigh : (0#5 ++ BitVec.ofNat 7 w).setWidth 16 = BitVec.ofNat 16 w := by
    apply BitVec.eq_of_toNat_eq
    simp only [BitVec.toNat_setWidth, BitVec.toNat_append, BitVec.toNat_ofNat, Nat.zero_mod,
      Nat.zero_shiftLeft, Nat.zero_or]
    omega
  calc cmdWord w opc = (0#5 ++ BitVec.ofNat 7 w ++ opc).setWidth 16 := (BitVec.setWidth_eq _).symm
    _ = (BitVec.ofNat 16 w <<< 4) ||| opc.setWidth 16 := by
      rw [BitVec.setWidth_append_eq_shiftLeft_setWidth_or, hhigh]

/-- Settles O5: `cmd_and_mask_eq_iff_decode` at the fields of each row of the table. -/
theorem opcodeMatchSelectsOperation : Obligations.OpcodeMatchSelectsOperation :=
  ⟨fun r =>
    ⟨cmd_and_mask_eq_iff_decode .u .encode .s r, cmd_and_mask_eq_iff_decode .sz .encode .s r,
      cmd_and_mask_eq_iff_decode .sn .encode .s r, cmd_and_mask_eq_iff_decode .u .decode .s r,
      cmd_and_mask_eq_iff_decode .sz .decode .s r, cmd_and_mask_eq_iff_decode .sn .decode .s r,
      cmd_and_mask_eq_iff_decode .u .encode .d r, cmd_and_mask_eq_iff_decode .sz .encode .d r,
      cmd_and_mask_eq_iff_decode .sn .encode .d r, cmd_and_mask_eq_iff_decode .u .decode .d r,
      cmd_and_mask_eq_iff_decode .sz .decode .d r, cmd_and_mask_eq_iff_decode .sn .decode .d r,
      decode_error_of_reserved_opcode⟩,
    fun i hi => cmdWord_eq_shiftLeft_or hi i.opc⟩

/-- A word made of an operation's opcode and a width decodes to that operation, with any operand. -/
theorem decode_cmdWord (c : Codec) (dir : Dir) (F : Fmt) (w : Nat) (v : PortWord) (cmd : CmdWord)
    (h : w ≤ 127 ∧ cmdWord w (fieldsOpcode c dir F) = cmd) :
    Sys2Proof.decode ⟨cmd, v⟩ = .ok (.ofFields c dir F w v) := by
  obtain ⟨hw, rfl⟩ := h
  have hi : (Instr.ofFields c dir F w v).WellFormed := (width_ofFields c dir F w v).trans_le hw
  simpa [encode] using encodedInstructionDecodesBack _ hi

/-- Settles O1: each word is the command word of its row's opcode and width. -/
theorem opcodeTableWordsDecode : Obligations.OpcodeTableWordsDecode := fun v =>
  ⟨decode_cmdWord .u .encode .s 8 v _ (by decide), decode_cmdWord .sz .encode .s 8 v _ (by decide),
    decode_cmdWord .sn .encode .s 8 v _ (by decide), decode_cmdWord .u .decode .s 8 v _ (by decide),
    decode_cmdWord .sz .decode .s 8 v _ (by decide), decode_cmdWord .sn .decode .s 8 v _ (by decide),
    decode_cmdWord .u .encode .d 8 v _ (by decide), decode_cmdWord .sz .encode .d 8 v _ (by decide),
    decode_cmdWord .sn .encode .d 8 v _ (by decide), decode_cmdWord .u .decode .d 8 v _ (by decide),
    decode_cmdWord .sz .decode .d 8 v _ (by decide), decode_cmdWord .sn .decode .d 8 v _ (by decide),
    decode_cmdWord .sz .encode .s 64 v _ (by decide), decode_cmdWord .u .encode .d 0 v _ (by decide),
    decode_cmdWord .sn .encode .s 127 v _ (by decide)⟩

end Sys2Proof
end

section
/-! # The step runs the decoded instruction (spec/40_primitive.md R108; log entries 1 and 2) -/

namespace Sys2Proof.Machine

/-- A step whose oldest waiting request decodes is the meaning of the instruction, run with that request
taken out of the list. -/
theorem step_of_decode_ok {s : State} {r : Request} {rest : List Request} {i : Instr}
    (hs : s.requests = r :: rest) (hd : Sys2Proof.decode r = .ok i) :
    step s = exec i { s with requests := rest } := by
  rw [step, fetch_of_cons hs]
  simp only [hd]

/-- Settles O6, by `step_of_decode_ok`. -/
theorem stepRunsDecodedInstruction : Obligations.StepRunsDecodedInstruction :=
  fun _ _ _ _ => step_of_decode_ok

theorem decodeTableWord_eq_some_iff (nbits w : Nat) (i : Instr) :
    decodeTableWord nbits w = some i ↔ Sys2Proof.decode (requestOfBits nbits w) = .ok i := by
  rw [decodeTableWord]
  cases Sys2Proof.decode (requestOfBits nbits w) <;> simp [Except.toOption]

/-- Settles O7: the placed request is the oldest waiting one, and taking it out again leaves the state it
was placed on. -/
theorem placedWordRunsNext : Obligations.PlacedWordRunsNext := by
  intro s nbits w i h
  have hd := (decodeTableWord_eq_some_iff nbits w i).1 h
  exact step_of_decode_ok (withFetchWord_requests s nbits w) hd

end Sys2Proof.Machine
end

section
/-! # How an `OK` result lies on the port (spec/30_encoding.md R65)

An operation that answers `OK` has passed its checks, so its result is the widened code of an encode
(`encodeOp_eq_ok`) or the placed float of a decode (`decodeOp_eq_ok`). The range of a code bounds the word
that carries it, and the bound fixes the word's upper bits. -/

namespace Sys2Proof.Machine

theorem encodeOp_eq_ok {p : Params} {c : Codec} {F : Fmt} {w : Nat} {v x : PortWord}
    (h : encodeOp p c F w v = .ok x) : LegalWidth p c w ∧ ∃ n, IsCode c w n ∧ x = widen n := by
  obtain ⟨-, e⟩ | ⟨-, -, e⟩ | ⟨hw, -, n, -, hn, e⟩ := encodeOp_cases p c F w v
  · cases h.symm.trans e
  · cases h.symm.trans e
  · exact ⟨hw, n, hn, Response.ok.inj (h.symm.trans e)⟩

theorem decodeOp_eq_ok {p : Params} {c : Codec} {F : Fmt} {w : Nat} {v x : PortWord}
    (h : decodeOp p c F w v = .ok x) :
    x = floatResult F (roundF F (unscale c w (readCode c v))) := by
  obtain ⟨-, e⟩ | ⟨-, -, e⟩ | ⟨-, -, e⟩ := decodeOp_cases p c F w v
  · cases h.symm.trans e
  · cases h.symm.trans e
  · exact Response.ok.inj (h.symm.trans e)

/-- An encode's result reads back as a code, and is that code widened (R92, R93). -/
theorem isCode_of_encodeOp_eq_ok {p : Params} (hp : p.Legal) {c : Codec} {F : Fmt} {w : Nat}
    {v x : PortWord} (h : encodeOp p c F w v = .ok x) :
    IsCode c w (readCode c x) ∧ x = widen (readCode c x) := by
  obtain ⟨⟨h2, hmax⟩, n, hn, rfl⟩ := encodeOp_eq_ok h
  rw [readCode_widen c h2 (hmax.trans (wmax_le hp c)) hn]
  exact ⟨hn, rfl⟩

/-! ### The upper bits of a bounded word -/

theorem getLsbD_eq_false_of_toNat_lt {n k j : Nat} {x : BitVec n} (h : x.toNat < 2 ^ k)
    (hj : k ≤ j) : x.getLsbD j = false :=
  Nat.testBit_eq_false_of_lt (h.trans_le (Nat.pow_le_pow_right (by decide) hj))

/-- The bits of a signed word from the bound of its range on are copies of one sign bit: 0 in a word that
is not negative, and in the complement of one that is. -/
theorem getLsbD_eq_decide_neg {n k j : Nat} {x : BitVec n} (hl : -(2 ^ k) ≤ x.toInt)
    (hu : x.toInt < 2 ^ k) (hj : k ≤ j) (hn : j < n) : x.getLsbD j = decide (x.toInt < 0) := by
  have hx := x.isLt
  have hsign := BitVec.toInt_neg_iff (x := x)
  have hval := BitVec.toInt_eq_toNat_cond x
  by_cases h0 : x.toInt < 0
  · have hnot : (~~~x).toNat < 2 ^ k := by
      rw [if_neg (by omega)] at hval
      rw [BitVec.toNat_not]
      zify
      omega
    simpa [hn, h0] using getLsbD_eq_false_of_toNat_lt hnot hj
  · have hpos : x.toNat < 2 ^ k := by
      rw [if_pos (by omega)] at hval
      zify
      omega
    simpa [h0] using getLsbD_eq_false_of_toNat_lt hpos hj

/-- A code of `U` is zero-extended on the port (R65, R92). -/
theorem getLsbD_of_isCode_u {w j : Nat} {x : PortWord} (h : IsCode .u w (readCode .u x))
    (hj : w ≤ j) : x.getLsbD j = false := by
  have hlt : (x.toNat : ℤ) < 2 ^ w := Int.lt_of_le_sub_one h.2
  exact getLsbD_eq_false_of_toNat_lt (by exact_mod_cast hlt) hj

/-- A code of `SZ` or `SN` is sign-extended on the port (R65, R92). -/
theorem getLsbD_of_isCode_signed {c : Codec} (hc : c ≠ .u) {w j : Nat} {x : PortWord}
    (h : IsCode c w (readCode c x)) (hj : w - 1 ≤ j) (h64 : j < 64) :
    x.getLsbD j = x.getLsbD 63 := by
  have hrange : -(2 ^ (w - 1)) ≤ x.toInt ∧ x.toInt < 2 ^ (w - 1) := by
    cases c with
    | u => exact absurd rfl hc
    | sz => exact ⟨h.1, Int.lt_of_le_sub_one h.2⟩
    | sn => exact ⟨h.1, Int.lt_of_le_sub_one h.2⟩
  obtain ⟨hl, hu⟩ := hrange
  rw [getLsbD_eq_decide_neg hl hu hj h64, getLsbD_eq_decide_neg hl hu (by omega) (by decide)]

/-! ### A binary32 pattern on the port -/

theorem floatResult_s_low (x : FloatFields) : (floatResult .s x).extractLsb 31 0 = packS x := by
  rw [floatResult, BitVec.extractLsb, BitVec.extractLsb'_setWidth_of_le (by decide)]
  exact BitVec.extractLsb'_eq_self

theorem floatResult_s_high (x : FloatFields) : (floatResult .s x).extractLsb 63 32 = 0#32 := by
  ext j hj
  simp [floatResult]

/-- Settles O28: an instruction answers only the response of its shared operation, whose result lies on
the port as the lemmas above say. -/
theorem resultPlacement : Obligations.ResultPlacement := by
  refine ⟨?_, ?_, ?_⟩
  · intro c F w v x h
    have hx : encodeOp Config.params c F w v = .ok x := answers_unique (answers_enc_of rfl) h
    obtain ⟨hcode, hwiden⟩ := isCode_of_encodeOp_eq_ok config_legal hx
    refine ⟨hcode, hwiden, ?_, ?_⟩
    · rintro rfl j hj
      exact getLsbD_of_isCode_u hcode hj
    · intro hc j hj h64
      exact getLsbD_of_isCode_signed hc hcode hj h64
  · intro c w v x h
    obtain rfl := decodeOp_eq_ok (answers_unique (answers_dec_of rfl) h)
    exact ⟨floatResult_s_high _, floatResult_s_low _⟩
  · intro c w v x h
    exact decodeOp_eq_ok (answers_unique (answers_dec_of rfl) h)

end Sys2Proof.Machine
end

section
/-! # The rounding primitive (spec/40_primitive.md R97)

A tie is an odd half (`isTie_iff`). Off a tie one integer alone is within one half, so both tie rules
answer it (`rnd_away_eq_rnd_even`); at a tie half-to-even answers the even one of the two that are. -/

namespace Sys2Proof.Machine

/-- `rnd` is odd (R97): the two lines of its definition mirror each other. -/
theorem rndAway_neg (x : ℚ) : rndAway (-x) = -rndAway x := by
  rcases lt_trichotomy x 0 with h | rfl | h
  · rw [rndAway_of_neg h, rndAway_of_nonneg (by linarith), neg_neg]
  · rw [neg_zero, ← Int.cast_zero, rndAway_intCast, neg_zero]
  · rw [rndAway_of_nonneg h.le, rndAway_of_neg (by linarith), neg_neg]

/-- Just below a positive integer by one half, half away from zero goes up to it. -/
theorem rndAway_sub_half {n : ℤ} (h : 1 ≤ n) : rndAway (n - 1 / 2) = n := by
  have h' : (1 : ℚ) ≤ n := by exact_mod_cast h
  rw [rndAway_of_nonneg (by linarith), sub_add_cancel, Int.floor_intCast]

/-! ### Ties -/

theorem isTie_iff (x : ℚ) : IsTie x ↔ ∃ m : ℤ, x = m + 1 / 2 := by
  constructor
  · intro h
    rw [IsTie] at h
    exact ⟨⌊x⌋, by linarith⟩
  · rintro ⟨m, rfl⟩
    have hfloor : ⌊(m : ℚ) + 1 / 2⌋ = m := by
      rw [Int.floor_intCast_add]; norm_num
    rw [IsTie, hfloor]; ring

/-- An integer exactly one half away shows a tie. -/
theorem isTie_of_abs_sub_eq_half {x : ℚ} {n : ℤ} (h : |(n : ℚ) - x| = 1 / 2) : IsTie x := by
  rw [isTie_iff]
  rcases (abs_eq (by norm_num)).1 h with h | h
  · exact ⟨n - 1, by push_cast; linarith⟩
  · exact ⟨n, by linarith⟩

/-- Off a tie the tie rule does not matter (R98). -/
theorem rnd_away_eq_rnd_even {x : ℚ} (h : ¬ IsTie x) : rnd .away x = rnd .even x :=
  rnd_eq_of_near .away ((rndEven_near x).lt_of_ne (mt isTie_of_abs_sub_eq_half h))

/-! ### Half to even is nearest, and even at a tie -/

/-- Two different integers lie at least 1 apart, so any integer but the answer is at least one half from
`x`. -/
theorem half_le_of_ne_rndEven {x : ℚ} {n : ℤ} (h : n ≠ rndEven x) : 1 / 2 ≤ |(n : ℚ) - x| := by
  have hapart : (1 : ℚ) ≤ |(n : ℚ) - rndEven x| := by
    exact_mod_cast Int.one_le_abs (sub_ne_zero.2 h)
  have htri := abs_sub_le (n : ℚ) x (rndEven x)
  have hnear := rndEven_near x
  rw [abs_sub_comm] at hnear
  linarith

theorem rndEven_nearest (x : ℚ) (n : ℤ) : |(rndEven x : ℚ) - x| ≤ |(n : ℚ) - x| := by
  by_cases h : n = rndEven x
  · rw [h]
  · exact (rndEven_near x).trans (half_le_of_ne_rndEven h)

theorem rndEven_even_of_equally_near {x : ℚ} {n : ℤ} (hne : n ≠ rndEven x)
    (h : |(n : ℚ) - x| = |(rndEven x : ℚ) - x|) : rndEven x % 2 = 0 := by
  have hhalf := (rndEven_near x).antisymm (h ▸ half_le_of_ne_rndEven hne)
  exact rndEven_tie (isTie_of_abs_sub_eq_half hhalf)

/-- The even integer within one half, tie or not, is the answer of half-to-even. -/
theorem rndEven_eq_of_even {x : ℚ} {n : ℤ} (hn : n % 2 = 0) (h : |(n : ℚ) - x| ≤ 1 / 2) :
    rndEven x = n := by
  by_contra hne
  have hhalf := h.antisymm (half_le_of_ne_rndEven (Ne.symm hne))
  have heven := rndEven_tie (isTie_of_abs_sub_eq_half hhalf)
  have hclose : |(n : ℚ) - rndEven x| ≤ 1 := by
    have htri := abs_sub_le (n : ℚ) x (rndEven x)
    have hnear := rndEven_near x
    rw [abs_sub_comm] at hnear
    linarith
  have hclose' : |n - rndEven x| ≤ 1 := by exact_mod_cast hclose
  rw [abs_le] at hclose'
  omega

/-- Settles O30. The rule's examples are closed facts, which the kernel evaluates. -/
theorem roundingPrimitive : Obligations.RoundingPrimitive := by
  refine ⟨rfl, fun _ => rfl, fun _ => rfl, fun _ => rndAway_of_nonneg, fun _ => rndAway_of_neg,
    ?_, ?_, ?_, ?_, ?_, ?_, rndAway_intCast, rndAway_neg, fun _ _ h => rndAway_mono h, rndAway_near,
    rndEven_nearest, fun _ _ => rndEven_even_of_equally_near, ?_, ?_, ?_, ?_⟩
  all_goals decide +kernel

end Sys2Proof.Machine
end

section
/-! # The clamp acts only out of domain (spec/40_primitive.md R100, R101)

`scale` is increasing and takes the ends of a codec's domain to the ends of its code range, but for -1 of
`SZ`, which it takes to the code above the bottom one (`scale_one`, `scale_u_zero`, `scale_sz_neg_one`,
`scale_sn_neg_one`). The rounding stays between integers, so in the domain the clamp has nothing to do,
and above or below it the scaled value lies beyond the end code. -/

namespace Sys2Proof.Machine

/-! ### What the clamped rounding can answer -/

theorem clampRound_of_mem {t : Tie} {x : ℚ} {l h : ℤ} (hl : (l : ℚ) ≤ x) (hh : x ≤ h) :
    clampRound t x l h = rnd t x := by
  obtain ⟨h1, h2⟩ := rnd_mem t hl hh
  exact clamp_of_mem h1 h2

theorem clampRound_of_rnd_le {t : Tie} {x : ℚ} {l h : ℤ} (hlh : l ≤ h) (hx : rnd t x ≤ l) :
    clampRound t x l h = l := clamp_of_le hlh hx

theorem clampRound_of_ge {t : Tie} {x : ℚ} {l h : ℤ} (hlh : l ≤ h) (hx : (h : ℚ) ≤ x) :
    clampRound t x l h = h := by
  have hr := rnd_mono t hx
  rw [rnd_intCast] at hr
  exact clamp_of_ge hlh hr

/-- A value at most an integer rounds to at most that integer. -/
theorem rnd_le_of_le {t : Tie} {x : ℚ} {n : ℤ} (hx : x ≤ n) : rnd t x ≤ n := by
  have hr := rnd_mono t hx
  rwa [rnd_intCast] at hr

theorem clampRound_of_le {t : Tie} {x : ℚ} {l h : ℤ} (hlh : l ≤ h) (hx : x ≤ l) :
    clampRound t x l h = l := clampRound_of_rnd_le hlh (rnd_le_of_le hx)

theorem quantize_finite {p : Params} {c : Codec} {F : Fmt} {w : Nat} {x : FloatFields}
    (h : fclass F x = .finite) :
    quantize p c F w x = some (clampRound p.tie (scale c w (fval F x)) (lo c w) (hi c w)) := by
  rw [quantize, h]

theorem quantize_posInf {p : Params} {c : Codec} {F : Fmt} {w : Nat} {x : FloatFields}
    (h : fclass F x = .posInf) : quantize p c F w x = some (hi c w) := by
  rw [quantize, h]

theorem quantize_negInf {p : Params} {c : Codec} {F : Fmt} {w : Nat} {x : FloatFields}
    (h : fclass F x = .negInf) : quantize p c F w x = some (lo c w) := by
  rw [quantize, h]

/-! ### The scaled ends of the domain -/

/-- `two_pow_half` over the rationals. -/
theorem two_pow_half_rat {w : Nat} (h : 2 ≤ w) : (2 : ℚ) ^ w = 2 * 2 ^ (w - 1) := by
  exact_mod_cast two_pow_half h

theorem scale_mono (c : Codec) {w : Nat} (h : 2 ≤ w) : Monotone (scale c w) := by
  intro f g hfg
  have hspan := three_le_codeSpan h
  have hmax := one_le_codeMax h
  cases c with
  | u => exact mul_le_mul_of_nonneg_right hfg (by linarith)
  | sz => exact mul_le_mul_of_nonneg_right hfg (by linarith)
  | sn =>
    have := mul_le_mul_of_nonneg_right hfg (show (0 : ℚ) ≤ 2 ^ w - 1 by linarith)
    simp only [scale]
    linarith

theorem scale_one (c : Codec) {w : Nat} (h : 2 ≤ w) : scale c w 1 = hi c w := by
  have hw := two_pow_half_rat h
  cases c <;> simp only [scale, hi] <;> push_cast <;> linarith

theorem scale_u_zero (w : Nat) : scale .u w 0 = lo .u w := by
  simp [scale, lo]

theorem scale_sz_neg_one (w : Nat) : scale .sz w (-1) = ((lo .sz w + 1 : ℤ) : ℚ) := by
  simp only [scale, lo]; push_cast; ring

theorem scale_sn_neg_one {w : Nat} (h : 2 ≤ w) : scale .sn w (-1) = lo .sn w := by
  have hw := two_pow_half_rat h
  simp only [scale, lo]; push_cast; linarith

/-- The lower end of a codec's domain. -/
def domainLow : Codec → ℚ
  | .u => 0
  | .sz | .sn => -1

theorem inDomain_iff (c : Codec) (f : ℚ) : InDomain c f ↔ domainLow c ≤ f ∧ f ≤ 1 := by
  cases c <;> rfl

theorem lo_le_scale_domainLow (c : Codec) {w : Nat} (h : 2 ≤ w) :
    (lo c w : ℚ) ≤ scale c w (domainLow c) := by
  cases c with
  | u => exact (scale_u_zero w).ge
  | sz =>
    rw [domainLow, scale_sz_neg_one]
    exact_mod_cast (Int.lt_succ (lo .sz w)).le
  | sn => exact (scale_sn_neg_one h).ge

/-- The scaled value of an in-domain input lies in the code range (R101). -/
theorem scale_mem_of_inDomain {c : Codec} {w : Nat} (h : 2 ≤ w) {f : ℚ} (hf : InDomain c f) :
    (lo c w : ℚ) ≤ scale c w f ∧ scale c w f ≤ hi c w := by
  obtain ⟨hlow, hone⟩ := (inDomain_iff c f).1 hf
  exact ⟨(lo_le_scale_domainLow c h).trans (scale_mono c h hlow),
    scale_one c h ▸ scale_mono c h hone⟩

/-! ### The end codes -/

theorem quantize_of_one_lt (p : Params) (c : Codec) {F : Fmt} {w : Nat} (h : 2 ≤ w) {x : FloatFields}
    (hx : fclass F x = .finite) (hf : 1 < fval F x) : quantize p c F w x = some (hi c w) := by
  have hhi := scale_mono c h hf.le
  rw [scale_one c h] at hhi
  rw [quantize_finite hx, clampRound_of_ge (lo_le_hi c h) hhi]

theorem quantize_u_of_neg (p : Params) {F : Fmt} {w : Nat} (h : 2 ≤ w) {x : FloatFields}
    (hx : fclass F x = .finite) (hf : fval F x < 0) : quantize p .u F w x = some (lo .u w) := by
  have hlo := scale_mono .u h hf.le
  rw [scale_u_zero] at hlo
  rw [quantize_finite hx, clampRound_of_le (lo_le_hi .u h) hlo]

theorem quantize_sn_of_lt_neg_one (p : Params) {F : Fmt} {w : Nat} (h : 2 ≤ w) {x : FloatFields}
    (hx : fclass F x = .finite) (hf : fval F x < -1) : quantize p .sn F w x = some (lo .sn w) := by
  have hlo := scale_mono .sn h hf.le
  rw [scale_sn_neg_one h] at hlo
  rw [quantize_finite hx, clampRound_of_le (lo_le_hi .sn h) hlo]

/-- Below -1 the codec `SZ` has one code below that of -1, and the value may still round to the latter
(R101). -/
theorem quantize_sz_of_lt_neg_one (p : Params) {F : Fmt} {w : Nat} (h : 2 ≤ w) {x : FloatFields}
    (hx : fclass F x = .finite) (hf : fval F x < -1) :
    quantize p .sz F w x = some (lo .sz w) ∨ quantize p .sz F w x = some (lo .sz w + 1) := by
  have hlo := scale_mono .sz h hf.le
  rw [scale_sz_neg_one] at hlo
  have hr := rnd_le_of_le (t := p.tie) hlo
  obtain ⟨h1, -⟩ := clamp_mem (rnd p.tie (scale .sz w (fval F x))) (lo_le_hi .sz h)
  have h2 := clamp_mono (lo_le_hi .sz h) hr
  have hmem : lo .sz w + 1 ≤ hi .sz w := by
    have := two_le_pow_pred h
    simp only [lo, hi]; omega
  simp only [clamp_of_mem (Int.lt_succ (lo .sz w)).le hmem] at h2
  rw [quantize_finite hx, Option.some_inj, Option.some_inj, clampRound]
  omega

/-- Settles O32. -/
theorem clampActsOnlyOutOfDomain : Obligations.ClampActsOnlyOutOfDomain := by
  intro p c F w x h
  refine ⟨fun hx hdom => ?_, quantize_of_one_lt p c h, ?_, ?_, ?_, quantize_posInf, quantize_negInf⟩
  · obtain ⟨hlo, hhi⟩ := scale_mem_of_inDomain h hdom
    refine ⟨?_, ?_, ?_, by rw [quantize_finite hx, clampRound_of_mem hlo hhi]⟩
    · rintro rfl
      simpa [lo, hi] using And.intro hlo hhi
    · rintro rfl
      have hbottom := scale_mono .sz h hdom.1
      rw [scale_sz_neg_one, lo] at hbottom
      push_cast at hbottom
      exact ⟨by linarith, by simpa [hi] using hhi⟩
    · rintro rfl
      simpa [lo, hi] using And.intro hlo hhi
  · rintro hx rfl hf
    exact quantize_u_of_neg p h hx hf
  · rintro hx rfl hf
    exact quantize_sn_of_lt_neg_one p h hx hf
  · rintro hx rfl hf
    exact quantize_sz_of_lt_neg_one p h hx hf

end Sys2Proof.Machine
end

section
/-! # A float's value as a whole number of units (spec/40_primitive.md R96)

Both lines of R96 say one thing: the value is `(-1)^s * m * 2^k` for a natural number `m` and an exponent
`k` that the exponent field gives (`fval_eq`). -/

namespace Sys2Proof.Machine

/-- The significand of a pattern as a whole number: with the leading 1 of a normal number. -/
def wholeSignificand (F : Fmt) (x : FloatFields) : ℕ :=
  if x.exp = 0 then x.frac else 2 ^ fracBits F + x.frac

/-- The binary exponent of the last place of a pattern; subnormals have that of the least normal
numbers. -/
def unitExp (F : Fmt) (x : FloatFields) : ℤ := (max x.exp 1 : ℕ) - (bias F : ℤ) - fracBits F

theorem fval_eq (F : Fmt) (x : FloatFields) :
    fval F x = signFactor x.sign * wholeSignificand F x * (2 : ℚ) ^ unitExp F x := by
  unfold fval wholeSignificand unitExp
  split_ifs with h
  · rw [h]; rfl
  · rw [max_eq_left (Nat.one_le_iff_ne_zero.2 h)]; push_cast; rfl

theorem abs_signFactor (s : Bool) : |signFactor s| = 1 := by
  cases s <;> simp [signFactor]

theorem abs_fval (F : Fmt) (x : FloatFields) :
    |fval F x| = wholeSignificand F x * (2 : ℚ) ^ unitExp F x := by
  rw [fval_eq, abs_mul, abs_mul, abs_signFactor, one_mul, Nat.abs_cast, abs_of_pos (by positivity)]

theorem wholeSignificand_lt {F : Fmt} {x : FloatFields} (h : x.Fits F) :
    wholeSignificand F x < 2 ^ (fracBits F + 1) := by
  have hfrac : x.frac < 2 ^ fracBits F := h.2
  rw [wholeSignificand, pow_succ]
  split_ifs <;> omega

/-- Every float is dyadic: a power of two makes it an integer. -/
theorem fval_dyadic (F : Fmt) (x : FloatFields) : ∃ (b : ℕ) (a : ℤ), fval F x * 2 ^ b = a := by
  have hsign : signFactor x.sign = ((if x.sign then -1 else 1 : ℤ) : ℚ) := by
    unfold signFactor; split_ifs <;> simp
  have hpow : (2 : ℚ) ^ unitExp F x * 2 ^ (bias F + fracBits F) = 2 ^ max x.exp 1 := by
    rw [← zpow_natCast, ← zpow_natCast, ← zpow_add₀ two_ne_zero, unitExp]
    congr 1; push_cast; ring
  refine ⟨bias F + fracBits F,
    (if x.sign then -1 else 1) * wholeSignificand F x * 2 ^ max x.exp 1, ?_⟩
  rw [fval_eq, mul_assoc, hpow, hsign]
  push_cast; rfl

end Sys2Proof.Machine
end

section
/-! # Where the tie rule matters (spec/40_primitive.md R98)

A tie of the scaled value makes an odd multiple of the float an integer, and a float is dyadic, so the
float (or its double) is an integer itself (`int_of_dyadic_mul_odd`): that leaves the inputs of the rule's
table. In the domain these are 1/2 of `U`, plus and minus 1/2 of `SZ` and 0 of `SN`
(`inDomain_tie_cases`), whose scaled values lie next to a known even code; out of the domain both tie
rules give the end code (`quantize_tie_out_of_domain`). -/

namespace Sys2Proof.Machine

/-! ### Which inputs are ties -/

/-- A dyadic rational that an odd factor makes an integer is an integer: no power of two divides the
factor. -/
theorem int_of_dyadic_mul_odd {f : ℚ} {b : ℕ} {a N m : ℤ} (hf : f * 2 ^ b = a) (hN : Odd N)
    (h : f * N = m) : ∃ k : ℤ, f = k := by
  have hcross : a * N = m * 2 ^ b := by
    have : (a : ℚ) * N = m * 2 ^ b := by rw [← hf, ← h]; ring
    exact_mod_cast this
  have hcop : IsCoprime ((2 : ℤ) ^ b) N := (Int.isCoprime_two_left.2 hN).pow_left
  obtain ⟨k, rfl⟩ := hcop.dvd_of_dvd_mul_right (Dvd.intro_left m hcross.symm)
  refine ⟨k, mul_right_cancel₀ (pow_ne_zero b (two_ne_zero (α := ℚ))) ?_⟩
  rw [hf]; push_cast; ring

theorem odd_two_pow_sub_one {w : Nat} (h : 1 ≤ w) : Odd ((2 : ℤ) ^ w - 1) := by
  obtain ⟨k, rfl⟩ : ∃ k, w = k + 1 := ⟨w - 1, by omega⟩
  exact ⟨2 ^ k - 1, by rw [pow_succ]; ring⟩

/-- A float times an odd number is a tie exactly where the float is an odd half. -/
theorem isTie_fval_mul_odd_iff {N : ℤ} (hN : Odd N) (F : Fmt) (x : FloatFields) :
    IsTie (fval F x * N) ↔ ∃ k : ℤ, k % 2 = 1 ∧ fval F x = k / 2 := by
  rw [isTie_iff]
  constructor
  · rintro ⟨m, hm⟩
    obtain ⟨b, a, ha⟩ := fval_dyadic F x
    have hdyadic : (2 * fval F x) * 2 ^ b = (2 * a : ℤ) := by rw [mul_assoc, ha]; push_cast; rfl
    have hmul : (2 * fval F x) * N = (2 * m + 1 : ℤ) := by rw [mul_assoc, hm]; push_cast; ring
    obtain ⟨k, hk⟩ := int_of_dyadic_mul_odd hdyadic hN hmul
    have hodd : Odd (k * N) := ⟨m, by rw [hk] at hmul; exact_mod_cast hmul⟩
    exact ⟨k, Int.odd_iff.1 (Int.odd_mul.1 hodd).1, by linarith⟩
  · rintro ⟨k, hk, hf⟩
    obtain ⟨m, hm⟩ := (Int.odd_iff.2 hk).mul hN
    have hm' : (k : ℚ) * N = 2 * m + 1 := by exact_mod_cast hm
    exact ⟨m, by rw [hf]; linarith⟩

/-- The scaled value of `SN` is a tie exactly where the float is an even integer. -/
theorem isTie_scale_sn_iff {w : Nat} (h : 2 ≤ w) (F : Fmt) (x : FloatFields) :
    IsTie (scale .sn w (fval F x)) ↔ ∃ k : ℤ, fval F x = 2 * k := by
  have hN := odd_two_pow_sub_one (w := w) (by omega)
  have hscale : scale .sn w (fval F x) = (fval F x * ((2 ^ w - 1 : ℤ) : ℚ) - 1) / 2 := by
    simp only [scale]; push_cast; rfl
  rw [isTie_iff, hscale]
  constructor
  · rintro ⟨m, hm⟩
    obtain ⟨b, a, ha⟩ := fval_dyadic F x
    have hmul : fval F x * ((2 ^ w - 1 : ℤ) : ℚ) = (2 * (m + 1) : ℤ) := by
      push_cast at hm ⊢; linarith
    obtain ⟨n, hn⟩ := int_of_dyadic_mul_odd ha hN hmul
    have heven : Even (n * (2 ^ w - 1)) :=
      even_iff_exists_two_mul.2 ⟨m + 1, by rw [hn] at hmul; exact_mod_cast hmul⟩
    obtain ⟨k, rfl⟩ := ((Int.even_mul.1 heven).resolve_right (Int.not_even_iff_odd.2 hN)).two_dvd
    exact ⟨k, by rw [hn]; push_cast; rfl⟩
  · rintro ⟨k, hk⟩
    exact ⟨k * (2 ^ w - 1) - 1, by rw [hk]; push_cast; ring⟩

theorem isTie_scale_iff {c : Codec} (hc : c ≠ .sn) {w : Nat} (h : 2 ≤ w) (F : Fmt)
    (x : FloatFields) :
    IsTie (scale c w (fval F x)) ↔ ∃ k : ℤ, k % 2 = 1 ∧ fval F x = k / 2 := by
  cases c with
  | u => simpa [scale] using isTie_fval_mul_odd_iff (odd_two_pow_sub_one (w := w) (by omega)) F x
  | sz =>
    simpa [scale] using isTie_fval_mul_odd_iff (odd_two_pow_sub_one (w := w - 1) (by omega)) F x
  | sn => exact absurd rfl hc

/-- The ties in the domain (R98). -/
theorem inDomain_tie_cases {c : Codec} {w : Nat} (h : 2 ≤ w) {F : Fmt} {x : FloatFields}
    (htie : IsTie (scale c w (fval F x))) (hdom : InDomain c (fval F x)) :
    (c = .u ∧ fval F x = 1 / 2) ∨ (c = .sz ∧ (fval F x = 1 / 2 ∨ fval F x = -1 / 2)) ∨
    (c = .sn ∧ fval F x = 0) := by
  obtain ⟨hl, hu⟩ := (inDomain_iff _ _).1 hdom
  cases c with
  | u =>
    obtain ⟨k, hk, hf⟩ := (isTie_scale_iff (by decide) h F x).1 htie
    rw [hf, domainLow] at hl
    rw [hf] at hu
    have hk0 : 0 ≤ k := by exact_mod_cast (by linarith : (0 : ℚ) ≤ k)
    have hk2 : k ≤ 2 := by exact_mod_cast (by linarith : (k : ℚ) ≤ 2)
    obtain rfl : k = 1 := by omega
    exact .inl ⟨rfl, by simpa using hf⟩
  | sz =>
    obtain ⟨k, hk, hf⟩ := (isTie_scale_iff (by decide) h F x).1 htie
    rw [hf, domainLow] at hl
    rw [hf] at hu
    have hk0 : -2 ≤ k := by exact_mod_cast (by linarith : (-2 : ℚ) ≤ k)
    have hk2 : k ≤ 2 := by exact_mod_cast (by linarith : (k : ℚ) ≤ 2)
    obtain rfl | rfl : k = 1 ∨ k = -1 := by omega
    · exact .inr (.inl ⟨rfl, .inl (by simpa using hf)⟩)
    · exact .inr (.inl ⟨rfl, .inr (by simpa using hf)⟩)
  | sn =>
    obtain ⟨k, hf⟩ := (isTie_scale_sn_iff h F x).1 htie
    rw [hf, domainLow] at hl
    rw [hf] at hu
    have hk0 : -1 < k := by exact_mod_cast (by linarith : (-1 : ℚ) < k)
    have hk1 : k < 1 := by exact_mod_cast (by linarith : (k : ℚ) < 1)
    obtain rfl : k = 0 := by omega
    exact .inr (.inr ⟨rfl, by simpa using hf⟩)

/-! ### The codes at the ties of the table -/

/-- Next to a positive even integer both tie rules go away from zero, on either side. -/
theorem rnd_half_of_even (t : Tie) {n : ℤ} (hn : 1 ≤ n) (heven : Even n) :
    rnd t (n - 1 / 2) = n ∧ rnd t (-(n - 1 / 2)) = -n := by
  cases t with
  | away => exact ⟨rndAway_sub_half hn, by rw [rnd, rndAway_neg, rndAway_sub_half hn]⟩
  | even =>
    refine ⟨rndEven_eq_of_even (Int.even_iff.1 heven) ?_,
      rndEven_eq_of_even (Int.even_iff.1 heven.neg) ?_⟩ <;>
    push_cast <;> ring_nf <;> norm_num

theorem even_two_pow {k : Nat} (h : k ≠ 0) : Even ((2 : ℤ) ^ k) := even_two.pow_of_ne_zero h

/-- The upper half of the code range of `SZ`, in terms of its middle. -/
theorem two_pow_pred_rat {w : Nat} (h : 2 ≤ w) : (2 : ℚ) ^ (w - 1) = 2 * 2 ^ (w - 2) := by
  obtain ⟨k, rfl⟩ : ∃ k, w = k + 2 := ⟨w - 2, by omega⟩
  exact pow_succ' 2 k

theorem quantize_u_half (p : Params) {F : Fmt} {w : Nat} (h : 2 ≤ w) {x : FloatFields}
    (hx : fclass F x = .finite) (hf : fval F x = 1 / 2) :
    quantize p .u F w x = some (2 ^ (w - 1)) := by
  have hscale : scale .u w (fval F x) = ((2 ^ (w - 1) : ℤ) : ℚ) - 1 / 2 := by
    have hw := two_pow_half_rat h
    rw [hf, scale]; push_cast; linarith
  have hpos := two_le_pow_pred h
  have hspan := two_pow_half h
  obtain ⟨hr, -⟩ := rnd_half_of_even p.tie (by omega) (even_two_pow (k := w - 1) (by omega))
  rw [quantize_finite hx, clampRound, hscale, hr, clamp_of_mem]
  · exact (zero_lt_two.trans_le hpos).le
  · simp only [hi]; omega

theorem scale_sz_half {w : Nat} (h : 2 ≤ w) :
    scale .sz w (1 / 2) = ((2 ^ (w - 2) : ℤ) : ℚ) - 1 / 2 ∧
    scale .sz w (-1 / 2) = -(((2 ^ (w - 2) : ℤ) : ℚ) - 1 / 2) := by
  have hw := two_pow_pred_rat h
  simp only [scale]
  push_cast
  constructor <;> linarith

theorem quantize_sz_half (p : Params) {F : Fmt} {w : Nat} (h : 3 ≤ w) {x : FloatFields}
    (hx : fclass F x = .finite) :
    (fval F x = 1 / 2 → quantize p .sz F w x = some (2 ^ (w - 2))) ∧
    (fval F x = -1 / 2 → quantize p .sz F w x = some (-(2 ^ (w - 2)))) := by
  obtain ⟨hpos, hneg⟩ := scale_sz_half (w := w) (by omega)
  have hone : (1 : ℤ) ≤ 2 ^ (w - 2) := one_le_pow₀ (by norm_num)
  have hw : (2 : ℤ) ^ (w - 1) = 2 * 2 ^ (w - 2) := by
    exact_mod_cast two_pow_pred_rat (w := w) (by omega)
  obtain ⟨hr, hr'⟩ := rnd_half_of_even p.tie hone (even_two_pow (k := w - 2) (by omega))
  constructor
  · intro hf
    rw [quantize_finite hx, clampRound, hf, hpos, hr, clamp_of_mem] <;> simp only [lo, hi] <;> omega
  · intro hf
    rw [quantize_finite hx, clampRound, hf, hneg, hr', clamp_of_mem] <;> simp only [lo, hi] <;> omega

/-- The inputs of `SZ` at W = 2 where the tie rule shows: the code range is -2 to 1. -/
theorem quantize_sz_two (p : Params) {F : Fmt} {x : FloatFields} (hx : fclass F x = .finite) :
    (fval F x = 1 / 2 → quantize p .sz F 2 x = some (rnd p.tie (1 / 2))) ∧
    (fval F x = -1 / 2 → quantize p .sz F 2 x = some (rnd p.tie (-1 / 2))) := by
  obtain ⟨hpos, hneg⟩ := scale_sz_half (w := 2) le_rfl
  have hpos' : scale .sz 2 (1 / 2) = 1 / 2 := by rw [hpos]; norm_num
  have hneg' : scale .sz 2 (-1 / 2) = -1 / 2 := by rw [hneg]; norm_num
  constructor
  · intro hf
    rw [quantize_finite hx, hf, hpos', clampRound_of_mem] <;> norm_num [lo, hi]
  · intro hf
    rw [quantize_finite hx, hf, hneg', clampRound_of_mem] <;> norm_num [lo, hi]

/-- A zero of `SN` is where the tie rule shows, at every width. -/
theorem quantize_sn_zero (p : Params) {F : Fmt} {w : Nat} (h : 2 ≤ w) {x : FloatFields}
    (hx : fclass F x = .finite) (hf : fval F x = 0) :
    quantize p .sn F w x = some (rnd p.tie (-1 / 2)) := by
  have hscale : scale .sn w (fval F x) = -1 / 2 := by rw [hf, scale]; ring
  have hdom : InDomain .sn (fval F x) := by rw [hf]; constructor <;> norm_num
  obtain ⟨hl, hu⟩ := scale_mem_of_inDomain h hdom
  rw [hscale] at hl hu
  rw [quantize_finite hx, hscale, clampRound_of_mem hl hu]

/-! ### Out of the domain a tie does not matter -/

/-- A tie of `SZ` below -1 is at most -3/2, so the value scales to at most half a unit above the bottom
code, and that rounds to the bottom code, which is even. -/
theorem quantize_sz_tie_below (p : Params) {F : Fmt} {w : Nat} (h : 2 ≤ w) {x : FloatFields}
    (hx : fclass F x = .finite) (htie : IsTie (scale .sz w (fval F x))) (hf : fval F x < -1) :
    quantize p .sz F w x = some (lo .sz w) := by
  obtain ⟨k, hk, hfk⟩ := (isTie_scale_iff (by decide) h F x).1 htie
  have hk2 : k < -2 := by exact_mod_cast (by linarith : (k : ℚ) < -2)
  have hk3 : (k : ℚ) ≤ -3 := by exact_mod_cast (by omega : k ≤ -3)
  have hmax := one_le_codeMax h
  have hscale : scale .sz w (fval F x) ≤ -(((2 ^ (w - 1) : ℤ) : ℚ) - 1 / 2) := by
    calc scale .sz w (fval F x) ≤ scale .sz w (-3 / 2) := scale_mono .sz h (by linarith)
      _ ≤ _ := by simp only [scale]; push_cast; linarith
  have hpos := two_le_pow_pred h
  obtain ⟨-, hr⟩ := rnd_half_of_even p.tie (by omega) (even_two_pow (k := w - 1) (by omega))
  have hle : rnd p.tie (scale .sz w (fval F x)) ≤ lo .sz w := (rnd_mono p.tie hscale).trans hr.le
  rw [quantize_finite hx, clampRound_of_rnd_le (lo_le_hi .sz h) hle]

theorem quantize_tie_below_domain (p : Params) {c : Codec} {F : Fmt} {w : Nat} (h : 2 ≤ w)
    {x : FloatFields} (hx : fclass F x = .finite) (htie : IsTie (scale c w (fval F x)))
    (hf : fval F x < domainLow c) : quantize p c F w x = some (lo c w) := by
  cases c with
  | u => exact quantize_u_of_neg p h hx hf
  | sz => exact quantize_sz_tie_below p h hx htie hf
  | sn => exact quantize_sn_of_lt_neg_one p h hx hf

/-- Out of the domain a tie gets the same end code under either tie rule. -/
theorem quantize_tie_out_of_domain {c : Codec} {F : Fmt} {w : Nat} (h : 2 ≤ w) {x : FloatFields}
    (hx : fclass F x = .finite) (htie : IsTie (scale c w (fval F x)))
    (hdom : ¬ InDomain c (fval F x)) :
    (1 < fval F x ∧ ∀ p, quantize p c F w x = some (hi c w)) ∨
    (fval F x < domainLow c ∧ ∀ p, quantize p c F w x = some (lo c w)) := by
  rcases lt_or_ge 1 (fval F x) with hf | hf
  · exact .inl ⟨hf, fun p => quantize_of_one_lt p c h hx hf⟩
  · have hlow : fval F x < domainLow c := not_le.1 fun hl => hdom ((inDomain_iff _ _).2 ⟨hl, hf⟩)
    exact .inr ⟨hlow, fun p => quantize_tie_below_domain p h hx htie hlow⟩

theorem domainLow_nonpos (c : Codec) : domainLow c ≤ 0 := by
  cases c <;> norm_num [domainLow]

/-- The roundings of one half on which the two tie rules differ. -/
theorem rnd_half : rnd .away (1 / 2) = 1 ∧ rnd .even (1 / 2) = 0 ∧
    rnd .away (-1 / 2) = -1 ∧ rnd .even (-1 / 2) = 0 := by decide +kernel

/-- If the codes differ, the input is one of the two rows of the table marked so. -/
theorem listed_of_quantize_ne {p : Params} {c : Codec} {F : Fmt} {w : Nat} (h : 2 ≤ w)
    {x : FloatFields} (hx : fclass F x = .finite)
    (hne : quantize { p with tie := .away } c F w x ≠ quantize { p with tie := .even } c F w x) :
    (c = .sn ∧ fval F x = 0) ∨ (c = .sz ∧ w = 2 ∧ (fval F x = 1 / 2 ∨ fval F x = -1 / 2)) := by
  have htie : IsTie (scale c w (fval F x)) := by
    by_contra hno
    rw [quantize_finite hx, quantize_finite hx] at hne
    simp only [clampRound, rnd_away_eq_rnd_even hno, ne_eq, not_true_eq_false] at hne
  by_cases hdom : InDomain c (fval F x)
  · obtain ⟨rfl, hf⟩ | ⟨rfl, hf⟩ | hsn := inDomain_tie_cases h htie hdom
    · exact absurd ((quantize_u_half _ h hx hf).trans (quantize_u_half _ h hx hf).symm) hne
    · refine .inr ⟨rfl, ?_, hf⟩
      by_contra hw
      have hcode := fun p => quantize_sz_half p (F := F) (w := w) (by omega) hx
      rcases hf with hf | hf
      · exact hne (((hcode _).1 hf).trans ((hcode _).1 hf).symm)
      · exact hne (((hcode _).2 hf).trans ((hcode _).2 hf).symm)
    · exact .inl hsn
  · obtain ⟨-, hcode⟩ | ⟨-, hcode⟩ := quantize_tie_out_of_domain h hx htie hdom
    all_goals exact absurd ((hcode _).trans (hcode _).symm) hne

/-- Settles O31: `isTie_scale_iff` and `isTie_scale_sn_iff` list the ties, `listed_of_quantize_ne` says
where the rules can differ, and the codes of the table's rows show that they do there. -/
theorem tieRuleMattersOnlyAtListedInputs : Obligations.TieRuleMattersOnlyAtListedInputs := by
  intro c F w x p h hx away even f
  obtain ⟨ha, he, hna, hne⟩ := rnd_half
  have hsn : c = .sn → f = 0 → away = some (-1) ∧ even = some 0 := by
    rintro rfl hf
    exact ⟨(quantize_sn_zero _ h hx hf).trans (congrArg some hna),
      (quantize_sn_zero _ h hx hf).trans (congrArg some hne)⟩
  have hszPos : c = .sz → w = 2 → f = 1 / 2 → away = some 1 ∧ even = some 0 := by
    rintro rfl rfl hf
    exact ⟨((quantize_sz_two _ hx).1 hf).trans (congrArg some ha),
      ((quantize_sz_two _ hx).1 hf).trans (congrArg some he)⟩
  have hszNeg : c = .sz → w = 2 → f = -1 / 2 → away = some (-1) ∧ even = some 0 := by
    rintro rfl rfl hf
    exact ⟨((quantize_sz_two _ hx).2 hf).trans (congrArg some hna),
      ((quantize_sz_two _ hx).2 hf).trans (congrArg some hne)⟩
  refine ⟨fun hc => isTie_scale_iff hc h F x, ?_, ⟨listed_of_quantize_ne h hx, ?_⟩, hsn, hszPos,
    hszNeg, ?_, ?_, ?_, fun htie hdom => ?_⟩
  · rintro rfl
    exact isTie_scale_sn_iff h F x
  · rintro (⟨hc, hf⟩ | ⟨hc, hw, hf | hf⟩)
    · obtain ⟨h1, h2⟩ := hsn hc hf
      rw [h1, h2]; decide
    · obtain ⟨h1, h2⟩ := hszPos hc hw hf
      rw [h1, h2]; decide
    · obtain ⟨h1, h2⟩ := hszNeg hc hw hf
      rw [h1, h2]; decide
  · rintro rfl hw hf
    exact ⟨(quantize_sz_half _ hw hx).1 hf, (quantize_sz_half _ hw hx).1 hf⟩
  · rintro rfl hw hf
    exact ⟨(quantize_sz_half _ hw hx).2 hf, (quantize_sz_half _ hw hx).2 hf⟩
  · rintro rfl hf
    exact ⟨quantize_u_half _ h hx hf, quantize_u_half _ h hx hf⟩
  · obtain ⟨hf, hcode⟩ | ⟨hf, hcode⟩ := quantize_tie_out_of_domain h hx htie hdom
    · exact ⟨fun _ => ⟨hcode _, hcode _⟩, fun hneg => absurd (zero_lt_one.trans hf) hneg.not_gt⟩
    · have hneg := hf.trans_le (domainLow_nonpos c)
      exact ⟨fun hpos => absurd (zero_lt_one.trans hpos) hneg.not_gt, fun _ => ⟨hcode _, hcode _⟩⟩

end Sys2Proof.Machine
end

section
/-! # Rounding to a float is correct (spec/40_primitive.md R102)

`roundF` rounds the magnitude `a` to a multiple of the unit `2^(e - P)` of its binade. A float at or above
`2^e` is such a multiple, so the rounding to an integer is nearest among these; a float below `2^e` is
farther away than `2^e`, which is a multiple too (`abs_fval_cases`, `significand_nearest`). The sign is
that of `q`, and the other sign is never nearer. That `roundF` is non-decreasing follows from its being
nearest. -/

namespace Sys2Proof.Machine

/-- The quotients of R103, on which R102 states `round_F`. -/
def IsQuotient (q : ℚ) : Prop := q = 0 ∨ ((2 : ℚ) ^ (-64 : ℤ) < |q| ∧ |q| ≤ 1)

/-! ### The nearest magnitude -/

/-- In units of the binade of `2^e`, a float is a whole number, or it lies below `2^e`. -/
theorem abs_fval_cases {F : Fmt} {y : FloatFields} (hy : y.Fits F) (e : ℤ) :
    (∃ m : ℤ, |fval F y| = m * (2 : ℚ) ^ (e - (fracBits F : ℤ))) ∨ |fval F y| < (2 : ℚ) ^ e := by
  have two : (2 : ℚ) ≠ 0 := two_ne_zero
  rw [abs_fval]
  rcases le_or_gt (e - (fracBits F : ℤ)) (unitExp F y) with h | h
  · obtain ⟨k, hk⟩ := Int.le.dest h
    refine .inl ⟨wholeSignificand F y * 2 ^ k, ?_⟩
    rw [← hk, zpow_add₀ two, zpow_natCast]
    push_cast; ring
  · have hm : (wholeSignificand F y : ℚ) < 2 ^ (fracBits F + 1) := by
      exact_mod_cast wholeSignificand_lt hy
    refine .inr ?_
    calc (wholeSignificand F y : ℚ) * 2 ^ unitExp F y
        < 2 ^ (fracBits F + 1) * 2 ^ unitExp F y := by gcongr
      _ = 2 ^ (fracBits F + 1 + unitExp F y) := by
          rw [← zpow_natCast, ← zpow_add₀ two]; push_cast; rfl
      _ ≤ 2 ^ e := zpow_le_zpow_right₀ (by norm_num) (by omega)

/-- A distance in units. -/
theorem abs_mul_sub_eq {u : ℚ} (hu : 0 < u) (m a : ℚ) : |m * u - a| = |m - a / u| * u := by
  rw [← abs_of_pos hu, ← abs_mul, abs_of_pos hu, sub_mul, div_mul_cancel₀ _ hu.ne']

/-- No float has a magnitude nearer to `a` than the rounded significand at the exponent of `a`; if another
is as near, the significand is even. -/
theorem significand_nearest {F : Fmt} {y : FloatFields} (hy : y.Fits F) {a : ℚ} (ha : 0 < a) :
    |significand F a * (2 : ℚ) ^ (ilog2 a - (fracBits F : ℤ)) - a| ≤ |(|fval F y|) - a| ∧
    (|fval F y| ≠ significand F a * (2 : ℚ) ^ (ilog2 a - (fracBits F : ℤ)) →
      |(|fval F y|) - a| = |significand F a * (2 : ℚ) ^ (ilog2 a - (fracBits F : ℤ)) - a| →
      significand F a % 2 = 0) := by
  have hbinade : (2 : ℚ) ^ ilog2 a = ((2 ^ fracBits F : ℤ) : ℚ) * 2 ^ (ilog2 a - (fracBits F : ℤ)) := by
    push_cast
    rw [← zpow_natCast, ← zpow_add₀ two_ne_zero]; congr 1; ring
  have hu : (0 : ℚ) < 2 ^ (ilog2 a - (fracBits F : ℤ)) := by positivity
  have hlow := (ilog2_spec ha).1
  have hcases := abs_fval_cases hy (ilog2 a)
  rw [hbinade] at hlow hcases
  rw [significand]
  generalize (2 : ℚ) ^ (ilog2 a - (fracBits F : ℤ)) = u at *
  obtain ⟨m, hm⟩ | hbelow := hcases
  · rw [hm, abs_mul_sub_eq hu, abs_mul_sub_eq hu]
    refine ⟨mul_le_mul_of_nonneg_right (rndEven_nearest _ m) hu.le, fun hne heq => ?_⟩
    have hne' : m ≠ rndEven (a / u) := fun h => hne (by rw [h])
    exact rndEven_even_of_equally_near hne' (mul_right_cancel₀ hu.ne' heq)
  · have hbinade_near : |rndEven (a / u) * u - a| ≤ |((2 ^ fracBits F : ℤ) : ℚ) * u - a| := by
      rw [abs_mul_sub_eq hu, abs_mul_sub_eq hu]
      exact mul_le_mul_of_nonneg_right (rndEven_nearest _ _) hu.le
    rw [abs_of_nonpos (sub_nonpos.2 hlow)] at hbinade_near
    rw [abs_of_neg (sub_neg.2 (hbelow.trans_le hlow))]
    exact ⟨by linarith, fun _ heq => by linarith⟩

/-! ### The fields of the answer -/

/-- An even significand leaves an even fraction: the leading 1 it drops is even, and a carry leaves 0. -/
theorem normalFields_frac_even (F : Fmt) (s : Bool) (e : ℤ) {n : ℤ} (hn : n % 2 = 0) :
    (normalFields F s e n).frac % 2 = 0 := by
  unfold normalFields
  split_ifs
  · rfl
  · cases F <;> simp only [fracBits, BitVec.toNat_ofInt] <;> omega

/-- The significand and the exponent of a normal number give its fields back. -/
theorem normalFields_of_fits {F : Fmt} {x : FloatFields} (hx : x.Fits F) :
    normalFields F x.sign ((x.exp : ℤ) - bias F) (2 ^ fracBits F + x.frac) = x := by
  obtain ⟨hexp, hfrac⟩ := hx
  have hcarry : ¬ ((2 : ℤ) ^ fracBits F + x.frac = 2 ^ (fracBits F + 1)) := by
    have hfrac' : (x.frac : ℤ) < 2 ^ fracBits F := by exact_mod_cast hfrac
    rw [pow_succ]; omega
  rw [normalFields, if_neg hcarry, sub_add_cancel, add_sub_cancel_left]
  simp only [BitVec.ofInt_natCast, BitVec.toNat_ofNat, Nat.mod_eq_of_lt hexp, Nat.mod_eq_of_lt hfrac]

/-- The exponent of a normal number's value is its exponent field without the bias. -/
theorem ilog2_abs_fval {F : Fmt} {x : FloatFields} (hx : x.Fits F) (hne : x.exp ≠ 0) :
    ilog2 |fval F x| = (x.exp : ℤ) - bias F := by
  have two : (2 : ℚ) ≠ 0 := two_ne_zero
  have hunit : unitExp F x = (x.exp : ℤ) - bias F - fracBits F := by
    rw [unitExp, max_eq_left (Nat.one_le_iff_ne_zero.2 hne)]
  have hlow : (2 : ℚ) ^ fracBits F ≤ wholeSignificand F x := by
    rw [wholeSignificand, if_neg hne]; exact_mod_cast Nat.le_add_right _ _
  have hhigh : (wholeSignificand F x : ℚ) < 2 ^ (fracBits F + 1) := by
    exact_mod_cast wholeSignificand_lt hx
  rw [abs_fval, hunit]
  apply ilog2_eq
  · calc (2 : ℚ) ^ ((x.exp : ℤ) - bias F)
        = 2 ^ fracBits F * 2 ^ ((x.exp : ℤ) - bias F - fracBits F) := by
          rw [← zpow_natCast, ← zpow_add₀ two]; congr 1; ring
      _ ≤ _ := by gcongr
  · calc _ < (2 : ℚ) ^ (fracBits F + 1) * 2 ^ ((x.exp : ℤ) - bias F - fracBits F) := by gcongr
      _ = 2 ^ ((x.exp : ℤ) - bias F + 1) := by
          rw [← zpow_natCast, ← zpow_add₀ two]; congr 1; push_cast; ring

theorem significand_abs_fval {F : Fmt} {x : FloatFields} (hx : x.Fits F) (hne : x.exp ≠ 0) :
    significand F |fval F x| = 2 ^ fracBits F + x.frac := by
  have hunits : |fval F x| / (2 : ℚ) ^ ((x.exp : ℤ) - bias F - fracBits F) =
      ((2 ^ fracBits F + x.frac : ℤ) : ℚ) := by
    rw [abs_fval, unitExp, max_eq_left (Nat.one_le_iff_ne_zero.2 hne), wholeSignificand, if_neg hne,
      mul_div_assoc, div_self (by positivity), mul_one]
    push_cast; rfl
  rw [significand, ilog2_abs_fval hx hne, hunits, rndEven_intCast]

theorem fval_neg_iff {F : Fmt} {x : FloatFields} (h0 : fval F x ≠ 0) :
    fval F x < 0 ↔ x.sign = true := by
  have hval : fval F x = signFactor x.sign * |fval F x| := by rw [abs_fval, fval_eq, mul_assoc]
  rw [hval, signFactor]
  cases x.sign with
  | false => simp
  | true => simpa using h0

/-- A normal number's value rounds to that number. -/
theorem roundF_fval {F : Fmt} {x : FloatFields} (hx : x.Fits F) (hne : x.exp ≠ 0)
    (h0 : fval F x ≠ 0) : roundF F (fval F x) = x := by
  have hsign : decide (fval F x < 0) = x.sign := by
    rw [Bool.decide_congr (fval_neg_iff h0), Bool.decide_eq_true]
  rw [roundF, if_neg h0, hsign, ilog2_abs_fval hx hne, significand_abs_fval hx hne,
    normalFields_of_fits hx]

/-- A subnormal lies far below the quotients of R103. -/
theorem exp_ne_zero_of_lt_abs_fval {F : Fmt} {x : FloatFields} (hx : x.Fits F)
    (h : (2 : ℚ) ^ (-64 : ℤ) < |fval F x|) : x.exp ≠ 0 := by
  intro h0
  have hfrac : (x.frac : ℚ) < 2 ^ fracBits F := by exact_mod_cast hx.2
  have hb : 126 < bias F := by cases F <;> simp [bias]
  rw [abs_fval, wholeSignificand, if_pos h0, unitExp, h0] at h
  refine absurd h (not_lt.2 ?_)
  calc (x.frac : ℚ) * 2 ^ (((max 0 1 : ℕ) : ℤ) - (bias F : ℤ) - fracBits F)
      ≤ 2 ^ fracBits F * 2 ^ (((max 0 1 : ℕ) : ℤ) - (bias F : ℤ) - fracBits F) := by gcongr
    _ = 2 ^ (1 - (bias F : ℤ)) := by
        rw [← zpow_natCast, ← zpow_add₀ two_ne_zero]; congr 1; simp
    _ ≤ 2 ^ (-64 : ℤ) := zpow_le_zpow_right₀ (by norm_num) (by omega)

/-! ### `round_F` on the quotients -/

theorem eq_signFactor_mul_abs (q : ℚ) : q = signFactor (decide (q < 0)) * |q| := by
  rcases lt_or_ge q 0 with h | h
  · rw [decide_eq_true h, abs_of_neg h, signFactor, if_pos rfl]; ring
  · rw [decide_eq_false h.not_gt, abs_of_nonneg h]; simp [signFactor]

/-- What `roundF` answers on a quotient that is not zero (`roundF_spec`), with its magnitude and its
distance from the quotient as those of the magnitudes. -/
theorem roundF_magnitude (F : Fmt) {q : ℚ} (h0 : q ≠ 0) (hq : IsQuotient q) :
    |fval F (roundF F q)| = significand F |q| * (2 : ℚ) ^ (ilog2 |q| - (fracBits F : ℤ)) ∧
    |fval F (roundF F q) - q| =
      |significand F |q| * (2 : ℚ) ^ (ilog2 |q| - (fracBits F : ℤ)) - (|q|)| := by
  obtain ⟨hl, hu⟩ := hq.resolve_left h0
  obtain ⟨-, -, -, -, hval⟩ := roundF_spec F h0 hl.le hu
  obtain ⟨hs, -, -⟩ := significand_spec F (abs_pos.2 h0)
  have hs' : (0 : ℚ) ≤ significand F |q| := by exact_mod_cast hs.trans' (by positivity)
  have hmag : |fval F (roundF F q)| =
      significand F |q| * (2 : ℚ) ^ (ilog2 |q| - (fracBits F : ℤ)) := by
    rw [hval, mul_assoc, abs_mul, abs_signFactor, one_mul, abs_of_nonneg (by positivity)]
  refine ⟨hmag, ?_⟩
  calc |fval F (roundF F q) - q|
      = |signFactor (decide (q < 0)) *
          (significand F |q| * (2 : ℚ) ^ (ilog2 |q| - (fracBits F : ℤ)) - |q|)| := by
        rw [mul_sub, ← eq_signFactor_mul_abs, ← mul_assoc, ← hval]
    _ = _ := by rw [abs_mul, abs_signFactor, one_mul]

theorem roundF_fits_finite (F : Fmt) {q : ℚ} (hq : IsQuotient q) :
    (roundF F q).Fits F ∧ fclass F (roundF F q) = .finite := by
  by_cases h0 : q = 0
  · rw [h0, roundF_zero]
    cases F <;> decide
  · obtain ⟨hl, hu⟩ := hq.resolve_left h0
    obtain ⟨hfits, hfin, -⟩ := roundF_spec F h0 hl.le hu
    exact ⟨hfits, hfin⟩

theorem fval_roundF_zero (F : Fmt) : fval F (roundF F 0) = 0 := by
  rw [roundF_zero, fval_eq]; simp [wholeSignificand]

/-- No float is nearer than `roundF`'s. -/
theorem roundF_nearest {F : Fmt} {q : ℚ} (hq : IsQuotient q) {y : FloatFields} (hy : y.Fits F) :
    |fval F (roundF F q) - q| ≤ |fval F y - q| := by
  by_cases h0 : q = 0
  · rw [h0, fval_roundF_zero, sub_zero, abs_zero]; exact abs_nonneg _
  · rw [(roundF_magnitude F h0 hq).2]
    exact (significand_nearest hy (abs_pos.2 h0)).1.trans (abs_abs_sub_abs_le _ _)

/-- A different float that is as near shows a tie, and the fraction is even. The float of the opposite
sign and the same magnitude is never as near, since `q` is not zero. -/
theorem roundF_frac_even {F : Fmt} {q : ℚ} (hq : IsQuotient q) {y : FloatFields} (hy : y.Fits F)
    (hne : fval F y ≠ fval F (roundF F q)) (heq : |fval F y - q| = |fval F (roundF F q) - q|) :
    (roundF F q).frac % 2 = 0 := by
  by_cases h0 : q = 0
  · simp [h0]
  have ha := abs_pos.2 h0
  obtain ⟨hmag, hdist⟩ := roundF_magnitude F h0 hq
  obtain ⟨hnear, heven⟩ := significand_nearest hy ha
  have hsign : |fval F y| ≠ |fval F (roundF F q)| := by
    intro habs
    have hopposite := (abs_eq_abs.1 habs).resolve_left hne
    have hsq : (fval F y - q) ^ 2 = (fval F (roundF F q) - q) ^ 2 :=
      (sq_eq_sq_iff_abs_eq_abs _ _).2 heq
    have hprod : fval F (roundF F q) * q = 0 := by rw [hopposite] at hsq; linarith
    have hzero : fval F (roundF F q) = 0 := (mul_eq_zero.1 hprod).resolve_right h0
    exact hne (by rw [hopposite, hzero, neg_zero])
  have hclose := (abs_abs_sub_abs_le (fval F y) q).trans_eq (heq.trans hdist)
  rw [roundF, if_neg h0]
  exact normalFields_frac_even F _ _ (heven (hmag ▸ hsign) (hclose.antisymm hnear))

theorem roundF_eq_of_fval_eq {F : Fmt} {q : ℚ} (hq : IsQuotient q) (h0 : q ≠ 0) {y : FloatFields}
    (hy : y.Fits F) (h : fval F y = q) : roundF F q = y := by
  subst h
  exact roundF_fval hy (exp_ne_zero_of_lt_abs_fval hy (hq.resolve_left h0).1) h0

/-- If the greater of two numbers is nearer to `q` and the smaller one is nearer to `q'`, then `q'` is not
above `q`. -/
theorem le_of_nearer_crosswise {r r' q q' : ℚ} (hlt : r' < r) (h : |r - q| ≤ |r' - q|)
    (h' : |r' - q'| ≤ |r - q'|) : q' ≤ q := by
  by_contra! hq
  have hprod := mul_pos (sub_pos.2 hlt) (sub_pos.2 hq)
  linarith [sq_le_sq.2 h, sq_le_sq.2 h']

/-- A nearest rounding is non-decreasing: answers in the wrong order would be nearer crosswise. -/
theorem roundF_mono {F : Fmt} {q q' : ℚ} (hq : IsQuotient q) (hq' : IsQuotient q') (h : q ≤ q') :
    fval F (roundF F q) ≤ fval F (roundF F q') := by
  by_contra! hlt
  have hge := le_of_nearer_crosswise hlt (roundF_nearest hq (roundF_fits_finite F hq').1)
    (roundF_nearest hq' (roundF_fits_finite F hq).1)
  obtain rfl : q = q' := h.antisymm hge
  exact lt_irrefl _ hlt

theorem isQuotient_one : IsQuotient 1 := .inr (by norm_num)

theorem isQuotient_neg_one : IsQuotient (-1) := .inr (by norm_num)

theorem fval_onePattern (F : Fmt) : fval F (floatOperand F (onePattern F)) = 1 := by
  cases F <;> decide +kernel

theorem fval_negOnePattern (F : Fmt) : fval F (floatOperand F (negOnePattern F)) = -1 := by
  cases F <;> decide +kernel

theorem roundF_one (F : Fmt) : roundF F 1 = floatOperand F (onePattern F) :=
  roundF_eq_of_fval_eq isQuotient_one one_ne_zero (floatOperand_fits F _) (fval_onePattern F)

theorem roundF_neg_one (F : Fmt) : roundF F (-1) = floatOperand F (negOnePattern F) :=
  roundF_eq_of_fval_eq isQuotient_neg_one (by norm_num) (floatOperand_fits F _) (fval_negOnePattern F)

/-- Settles O33. -/
theorem roundToFloatIsCorrect : Obligations.RoundToFloatIsCorrect := by
  intro F q hq
  obtain ⟨hfits, hfin⟩ := roundF_fits_finite F hq
  refine ⟨hfits, hfin, fun y hy _ => ⟨roundF_nearest hq hy, roundF_frac_even hq hy, ?_⟩,
    fun q' hq' h => roundF_mono hq hq' h, roundF_zero F, roundF_one F, roundF_neg_one F⟩
  exact fun h h0 => roundF_eq_of_fval_eq hq h0 hy h

end Sys2Proof.Machine
end

section
/-! # The results of a decode (spec/40_primitive.md R94, R103, R104)

`unscale` is non-decreasing in the code and takes the ends of the code range to the ends of the domain
(`unscale_lo`, `unscale_hi`), and the codes next to zero to the least magnitude: so every quotient is 0 or
one on which `round_F` is correct (`isQuotient_unscale`), and its rounding stays in the domain. -/

namespace Sys2Proof.Machine

/-! ### The exact value of a code -/

theorem unscale_mono (c : Codec) {w : Nat} (h : 2 ≤ w) : Monotone (unscale c w) := by
  intro m n hmn
  have hmn' : (m : ℚ) ≤ n := by exact_mod_cast hmn
  have hspan := three_le_codeSpan h
  have hmax := one_le_codeMax h
  cases c with
  | u => exact div_le_div_of_nonneg_right hmn' (by linarith)
  | sz => exact max_le_max_right _ (div_le_div_of_nonneg_right hmn' (by linarith))
  | sn => exact div_le_div_of_nonneg_right (by linarith) (by linarith)

theorem unscale_hi (c : Codec) {w : Nat} (h : 2 ≤ w) : unscale c w (hi c w) = 1 := by
  have hspan := three_le_codeSpan h
  have hmax := one_le_codeMax h
  have hw := two_pow_half_rat h
  cases c <;> simp only [unscale, hi] <;> push_cast
  · exact div_self (by linarith)
  · rw [div_self (by linarith)]; norm_num
  · rw [div_eq_one_iff_eq (by linarith)]; linarith

theorem unscale_lo (c : Codec) {w : Nat} (h : 2 ≤ w) : unscale c w (lo c w) = domainLow c := by
  have hspan := three_le_codeSpan h
  have hmax := one_le_codeMax h
  have hw := two_pow_half_rat h
  cases c <;> simp only [unscale, lo, domainLow] <;> push_cast
  · exact zero_div _
  · exact max_eq_right ((div_le_iff₀ (by linarith)).2 (by linarith))
  · rw [div_eq_iff (by linarith)]; linarith

/-- The exact value of a code lies in the codec's domain. -/
theorem inDomain_unscale {c : Codec} {w : Nat} (h : 2 ≤ w) {n : ℤ} (hn : IsCode c w n) :
    InDomain c (unscale c w n) := by
  rw [inDomain_iff, ← unscale_lo c h, ← unscale_hi c h]
  exact ⟨unscale_mono c h hn.1, unscale_mono c h hn.2⟩

theorem neg_one_le_domainLow (c : Codec) : -1 ≤ domainLow c := by
  cases c <;> norm_num [domainLow]

theorem abs_le_one_of_inDomain {c : Codec} {f : ℚ} (h : InDomain c f) : |f| ≤ 1 := by
  obtain ⟨hl, hu⟩ := (inDomain_iff c f).1 h
  exact abs_le.2 ⟨(neg_one_le_domainLow c).trans hl, hu⟩

/-! ### The least magnitudes -/

theorem unscale_u_one (w : Nat) : unscale .u w 1 = 1 / (2 ^ w - 1) := by
  simp [unscale]

theorem unscale_sz_one {w : Nat} (h : 2 ≤ w) : unscale .sz w 1 = 1 / (2 ^ (w - 1) - 1) := by
  have hpos : (0 : ℚ) ≤ 1 / (2 ^ (w - 1) - 1) := by
    have := one_le_codeMax h; exact div_nonneg (by norm_num) (by linarith)
  rw [unscale, Int.cast_one, max_eq_left (by linarith)]

theorem unscale_sz_neg_one {w : Nat} (h : 2 ≤ w) :
    unscale .sz w (-1) = -(1 / (2 ^ (w - 1) - 1)) := by
  have hle : (1 : ℚ) / (2 ^ (w - 1) - 1) ≤ 1 := div_le_one_of_le₀ (one_le_codeMax h)
    (by linarith [one_le_codeMax h])
  rw [unscale, Int.cast_neg, Int.cast_one, neg_div, max_eq_left (by linarith)]

theorem unscale_sn_zero (w : Nat) : unscale .sn w 0 = 1 / (2 ^ w - 1) := by
  simp [unscale]

theorem unscale_sn_neg_one (w : Nat) : unscale .sn w (-1) = -(1 / (2 ^ w - 1)) := by
  simp only [unscale]; push_cast; ring

/-- The least magnitude of a value of a codec that is not 0 (R103). -/
def leastMagnitude (c : Codec) (w : Nat) : ℚ :=
  if c = .sz then 1 / (2 ^ (w - 1) - 1) else 1 / (2 ^ w - 1)

theorem leastMagnitude_le_of_ge {c : Codec} {w : Nat} (h : 2 ≤ w) {m n : ℤ} (hmn : m ≤ n)
    (hm : unscale c w m = leastMagnitude c w) : leastMagnitude c w ≤ |unscale c w n| :=
  hm ▸ (unscale_mono c h hmn).trans (le_abs_self _)

theorem leastMagnitude_le_of_le {c : Codec} {w : Nat} (h : 2 ≤ w) {m n : ℤ} (hnm : n ≤ m)
    (hm : unscale c w m = -leastMagnitude c w) : leastMagnitude c w ≤ |unscale c w n| := by
  have hn := unscale_mono c h hnm
  rw [hm] at hn
  exact (le_neg_of_le_neg hn).trans (neg_le_abs _)

/-- A decode quotient is 0 at code 0 of `U` and `SZ`, and at least the least magnitude elsewhere. -/
theorem unscale_cases {c : Codec} {w : Nat} (h : 2 ≤ w) {n : ℤ} (hn : IsCode c w n) :
    (c ≠ .sn ∧ n = 0 ∧ unscale c w n = 0) ∨
    (¬ (c ≠ .sn ∧ n = 0) ∧ leastMagnitude c w ≤ |unscale c w n|) := by
  cases c with
  | u =>
    have hn0 : 0 ≤ n := hn.1
    obtain rfl | hpos : n = 0 ∨ 1 ≤ n := by omega
    · exact .inl ⟨by decide, rfl, by simp [unscale]⟩
    · exact .inr ⟨by omega, leastMagnitude_le_of_ge h hpos (unscale_u_one w)⟩
  | sz =>
    obtain rfl | hpos | hneg : n = 0 ∨ 1 ≤ n ∨ n ≤ -1 := by omega
    · exact .inl ⟨by decide, rfl, by simp [unscale]⟩
    · exact .inr ⟨by omega, leastMagnitude_le_of_ge h hpos (unscale_sz_one h)⟩
    · exact .inr ⟨by omega, leastMagnitude_le_of_le h hneg (unscale_sz_neg_one h)⟩
  | sn =>
    obtain hpos | hneg : 0 ≤ n ∨ n ≤ -1 := by omega
    · exact .inr ⟨fun hc => hc.1 rfl, leastMagnitude_le_of_ge h hpos (unscale_sn_zero w)⟩
    · exact .inr ⟨fun hc => hc.1 rfl, leastMagnitude_le_of_le h hneg (unscale_sn_neg_one w)⟩

theorem inv_pow_le_leastMagnitude (c : Codec) {w : Nat} (h2 : 2 ≤ w) (h64 : w ≤ 64) :
    (1 : ℚ) / (2 ^ 64 - 1) ≤ leastMagnitude c w := by
  have hspan := three_le_codeSpan h2
  have hmax := one_le_codeMax h2
  have hw := two_pow_half_rat h2
  have h64' : (2 : ℚ) ^ w ≤ 2 ^ 64 := pow_le_pow_right₀ (by norm_num) h64
  unfold leastMagnitude
  split_ifs <;> exact one_div_le_one_div_of_le (by linarith) (by linarith)

theorem isQuotient_unscale {c : Codec} {w : Nat} (h2 : 2 ≤ w) (h64 : w ≤ 64) {n : ℤ}
    (hn : IsCode c w n) : IsQuotient (unscale c w n) := by
  obtain ⟨-, -, h0⟩ | ⟨-, hleast⟩ := unscale_cases h2 hn
  · exact .inl h0
  · have htiny : (2 : ℚ) ^ (-64 : ℤ) < 1 / (2 ^ 64 - 1) := by norm_num
    exact .inr ⟨htiny.trans_le ((inv_pow_le_leastMagnitude c h2 h64).trans hleast),
      abs_le_one_of_inDomain (inDomain_unscale h2 hn)⟩

/-! ### The float of a code -/

theorem isQuotient_and_fval_roundF_domainLow (c : Codec) (F : Fmt) :
    IsQuotient (domainLow c) ∧ fval F (roundF F (domainLow c)) = domainLow c := by
  have hneg : fval F (roundF F (-1)) = -1 := by rw [roundF_neg_one, fval_negOnePattern]
  cases c with
  | u => exact ⟨.inl rfl, fval_roundF_zero F⟩
  | sz => exact ⟨isQuotient_neg_one, hneg⟩
  | sn => exact ⟨isQuotient_neg_one, hneg⟩

/-- Rounding to a float does not leave the domain: its ends are floats. -/
theorem inDomain_roundF {c : Codec} {q : ℚ} (F : Fmt) (hq : IsQuotient q) (h : InDomain c q) :
    InDomain c (fval F (roundF F q)) := by
  obtain ⟨hl, hu⟩ := (inDomain_iff c q).1 h
  obtain ⟨hqlow, hlow⟩ := isQuotient_and_fval_roundF_domainLow c F
  have hone : fval F (roundF F 1) = 1 := by rw [roundF_one, fval_onePattern]
  rw [inDomain_iff, ← hone]
  exact ⟨hlow ▸ roundF_mono hqlow hq hl, roundF_mono hq isQuotient_one hu⟩

theorem floatResult_zero (F : Fmt) : floatResult F ⟨false, 0, 0⟩ = 0#64 := by
  cases F <;> decide

/-- What a decode's `OK` result is: the quotient's float, finite and in the domain, read back from the
port as it was placed there. -/
theorem decodeOp_ok_spec {p : Params} (hp : p.Legal) {c : Codec} {F : Fmt} {w : Nat} {v y : PortWord}
    (h : decodeOp p c F w v = .ok y) :
    floatOperand F y = roundF F (unscale c w (readCode c v)) ∧ FiniteOn F y ∧
      InDomain c (valueOn F y) := by
  obtain ⟨-, e⟩ | ⟨-, -, e⟩ | ⟨⟨h2, hmax⟩, hcode, e⟩ := decodeOp_cases p c F w v
  · cases h.symm.trans e
  · cases h.symm.trans e
  · obtain rfl := Response.ok.inj (h.symm.trans e)
    have hq := isQuotient_unscale h2 (hmax.trans (wmax_le hp c)) hcode
    obtain ⟨hfits, hfin⟩ := roundF_fits_finite F hq
    rw [FiniteOn, valueOn, floatOperand_floatResult F hfits]
    exact ⟨rfl, hfin, inDomain_roundF F hq (inDomain_unscale h2 hcode)⟩

/-- Settles O34. -/
theorem decodeResultRange : Obligations.DecodeResultRange := by
  intro p c F w v hp hw hcode
  dsimp only
  obtain ⟨h2, hmax⟩ := hw
  have h64 := hmax.trans (wmax_le hp c)
  have hq := isQuotient_unscale h2 h64 hcode
  have hfloor := inv_pow_le_leastMagnitude c h2 h64
  have hspan : (0 : ℚ) ≤ 1 / (2 ^ w - 1) :=
    one_div_nonneg.2 (zero_le_three.trans (three_le_codeSpan h2))
  have hmaxSz : (0 : ℚ) ≤ 1 / (2 ^ (w - 1) - 1) :=
    one_div_nonneg.2 (zero_le_one.trans (one_le_codeMax h2))
  have hok : decodeOp p c F w v = .ok (floatResult F (roundF F (unscale c w (readCode c v)))) := by
    rw [decodeOp, if_pos ⟨h2, hmax⟩, if_pos hcode]
  refine ⟨?_, ?_, ?_, ?_, ?_, _, hok, ?_, ?_⟩
  · obtain ⟨hc, hn, h0⟩ | ⟨hne, hleast⟩ := unscale_cases h2 hcode
    · exact iff_of_true h0 ⟨hc, hn⟩
    · have htiny : (0 : ℚ) < 1 / (2 ^ 64 - 1) := by norm_num
      exact iff_of_false (abs_pos.1 (htiny.trans_le (hfloor.trans hleast))) hne
  · intro h0
    obtain ⟨-, -, h0'⟩ | ⟨-, hleast⟩ := unscale_cases h2 hcode
    · exact absurd h0' h0
    · exact ⟨hfloor.trans hleast, (hq.resolve_left h0).2, hleast⟩
  · rintro rfl hn
    rw [hn, unscale_u_one, abs_of_nonneg hspan]
  · rintro rfl (hn | hn)
    · rw [hn, unscale_sz_one h2, abs_of_nonneg hmaxSz]
    · rw [hn, unscale_sz_neg_one h2, abs_neg, abs_of_nonneg hmaxSz]
  · rintro rfl (hn | hn)
    · rw [hn, unscale_sn_zero, abs_of_nonneg hspan]
    · rw [hn, unscale_sn_neg_one, abs_neg, abs_of_nonneg hspan]
  · intro h0
    rw [h0, roundF_zero, floatResult_zero]
  · intro h0
    obtain ⟨hl, hu⟩ := hq.resolve_left h0
    obtain ⟨-, -, hexp, -, -⟩ := roundF_spec F h0 hl.le hu
    obtain ⟨hread, hfin, hdom⟩ := decodeOp_ok_spec hp hok
    rw [← hread] at hexp
    exact ⟨hfin, Nat.one_le_iff_ne_zero.2 hexp, abs_le_one_of_inDomain hdom⟩

end Sys2Proof.Machine
end

section
/-! # What follows at once from R108 (spec/40_primitive.md R108, R109)

A command is illegal, or it names a codec, and then R108's response is the one of the shared operation that
the fields select (`illegal_or_codec`, `transact_of_codec`). Setting the bit `DIR` changes that field
alone, and turns an encode into the decode with the same codec, format and width. -/

namespace Sys2Proof.Machine

/-- Settles O8, by `responds_transact`. -/
theorem everyRequestAnsweredByTheSkeleton : Obligations.EveryRequestAnsweredByTheSkeleton :=
  responds_transact

/-! ### Legal and illegal commands -/

theorem illegal_or_codec (cmd : CmdWord) :
    (∀ p v, transact p ⟨cmd, v⟩ = .fault .illegalCommand) ∨
    ∃ c, cmdRsv cmd = 0#5 ∧ codecOfBits (cmdCodec cmd) = some c := by
  by_cases hrsv : cmdRsv cmd = 0#5
  · cases hc : codecOfBits (cmdCodec cmd) with
    | none => exact .inl fun _ _ => if_pos (.inr (codecOfBits_eq_none hc))
    | some c => exact .inr ⟨c, hrsv, rfl⟩
  · exact .inl fun _ _ => if_pos (.inl hrsv)

theorem status_toNat_le_four (r : Response) : r.status.toNat ≤ 4 := by
  cases r with
  | ok _ => exact Nat.zero_le 4
  | fault f => cases f <;> decide

/-- An encode of format `.S` reads the low half of the operand only (R64). -/
theorem encodeOp_s_congr (p : Params) (c : Codec) (w : Nat) {v v' : PortWord}
    (h : v.extractLsb 31 0 = v'.extractLsb 31 0) : encodeOp p c .s w v = encodeOp p c .s w v' := by
  have hread : floatOperand .s v = floatOperand .s v' := congrArg fieldsS h
  rw [encodeOp, hread, encodeOp]

/-! ### The command with the bit `DIR` set -/

/-- A field that does not hold the bit `DIR` stays. -/
theorem extractLsb_or_dirBit {i j : Nat} (h : (0x0004#16).extractLsb i j = 0#_) (cmd : CmdWord) :
    (cmd ||| 0x0004#16).extractLsb i j = cmd.extractLsb i j := by
  rw [BitVec.extractLsb, BitVec.extractLsb'_or, ← BitVec.extractLsb, ← BitVec.extractLsb, h,
    BitVec.or_zero]

theorem dirOfBit_cmdDir_or_dirBit (cmd : CmdWord) :
    dirOfBit (cmdDir (cmd ||| 0x0004#16)) = .decode := by
  rw [dirOfBit_cmdDir]
  simp

/-- Setting `DIR` leaves the codec, the format and the width (R61), so the request decodes with them. -/
theorem transact_or_dirBit (p : Params) {cmd : CmdWord} {c : Codec} (hrsv : cmdRsv cmd = 0#5)
    (hc : codecOfBits (cmdCodec cmd) = some c) (v : PortWord) :
    transact p ⟨cmd ||| 0x0004#16, v⟩ = decodeOp p c (fmtOfBit (cmdFmt cmd)) (cmdWidth cmd) v := by
  have hrsv' : cmdRsv (cmd ||| 0x0004#16) = cmdRsv cmd := extractLsb_or_dirBit (by decide) cmd
  have hcodec : cmdCodec (cmd ||| 0x0004#16) = cmdCodec cmd := extractLsb_or_dirBit (by decide) cmd
  have hfmt : cmdFmt (cmd ||| 0x0004#16) = cmdFmt cmd := extractLsb_or_dirBit (by decide) cmd
  have hwidth : cmdWidth (cmd ||| 0x0004#16) = cmdWidth cmd := by
    rw [cmdWidth, extractLsb_or_dirBit (by decide), cmdWidth]
  have hlegal : codecOfBits (cmdCodec (cmd ||| 0x0004#16)) = some c := hcodec ▸ hc
  rw [transact_of_codec p (r := ⟨cmd ||| 0x0004#16, v⟩) (hrsv'.trans hrsv) hlegal]
  simp only [dirOfBit_cmdDir_or_dirBit, hfmt, hwidth, opResponse_decode]

/-- Settles O29. -/
theorem skeletonProperties : Obligations.SkeletonProperties := by
  rintro p hp ⟨cmd, v⟩
  obtain hillegal | ⟨c, hrsv, hc⟩ := illegal_or_codec cmd
  · refine ⟨fun _ _ v' _ => (hillegal p v').trans (hillegal p v).symm, status_toNat_le_four _, ?_, ?_⟩
    all_goals
      intro _ x hx
      cases (hillegal p v).symm.trans hx
  · have hresp := fun v => transact_of_codec p (r := ⟨cmd, v⟩) hrsv hc
    simp only [dirOfBit_cmdDir] at hresp
    refine ⟨fun hF hdir v' hv => ?_, status_toNat_le_four _, fun hdir x hx => ?_, fun hdir y hy => ?_⟩
    · have hs : fmtOfBit (cmdFmt cmd) = .s := by
        rw [fmtOfBit_cmdFmt, hF]; rfl
      rw [hresp, hresp, if_pos hdir, hs]
      exact encodeOp_s_congr p c _ hv
    · rw [hresp, if_pos hdir] at hx
      obtain ⟨hw, -⟩ := encodeOp_eq_ok hx
      obtain ⟨hcode, -⟩ := isCode_of_encodeOp_eq_ok hp hx
      exact ⟨_, by rw [transact_or_dirBit p hrsv hc, decodeOp, if_pos hw, if_pos hcode]⟩
    · rw [hresp, if_neg (by rw [hdir]; decide), fmtOfBit_cmdFmt] at hy
      obtain ⟨-, hfin, hdom⟩ := decodeOp_ok_spec hp hy
      obtain ⟨hlow, hone⟩ := (inDomain_iff _ _).1 hdom
      refine ⟨hfin, (neg_one_le_domainLow c).trans hlow, hone, fun hzero => ?_⟩
      obtain ⟨-, hcodec⟩ := codecOfBits_eq_some hc
      obtain rfl : .u = c := by rwa [cmdCodec, if_pos hzero] at hcodec
      exact hlow

end Sys2Proof.Machine
end

section
/-! # The unsigned codec (spec/41_unsigned.md R120 to R126)

`QU` under this hardware's tie rule takes the code whose interval of half a step to either side holds the
scaled value, its lower end included (`quantize_u_of_mem`); the bottom and the top code take all that lies
below and above (`quantize_u_bottom`, `quantize_u_top`). `DQU.D` is strictly increasing because the steps of
the codec, at least `1/(2^32 - 1)`, are wider than twice the rounding error of binary64 (`roundF_near`,
`roundF_lt_roundF`). -/

namespace Sys2Proof.Machine

/-! ### What the four operations answer -/

/-- The code of an unsigned encode, the formula of R120 and R121. -/
def unsignedCode (F : Fmt) (w : Nat) (x : FloatFields) : ℤ :=
  match fclass F x with
  | .posInf => 2 ^ w - 1
  | .negInf => 0
  | _ => clamp (rndAway (fval F x * (2 ^ w - 1))) 0 (2 ^ w - 1)

theorem quantize_u_eq_unsignedCode {F : Fmt} {w : Nat} {x : FloatFields} (hx : fclass F x ≠ .nan) :
    quantize Config.params .u F w x = some (unsignedCode F w x) := by
  unfold unsignedCode
  obtain ⟨hc, -⟩ | ⟨hc, e⟩ | ⟨hc, e⟩ | ⟨hc, e⟩ := quantize_cases Config.params .u F w x
  · exact absurd hc hx
  all_goals rw [e, hc]; rfl

theorem answers_enc_of_quantize {c : Codec} {F : Fmt} {w : Nat} {v : PortWord} {n : ℤ}
    (hw : LegalWidth Config.params c w)
    (h : quantize Config.params c F w (floatOperand F v) = some n) :
    Answers (enc c F w v) (.ok (widen n)) :=
  answers_enc_of (encodeOp_of_quantize hw h)

theorem answers_enc_u {F : Fmt} {w : Nat} {v : PortWord} (h2 : 2 ≤ w) (h32 : w ≤ 32)
    (hv : fclass F (floatOperand F v) ≠ .nan) :
    Answers (enc .u F w v) (.ok (widen (unsignedCode F w (floatOperand F v)))) :=
  answers_enc_of_quantize ⟨h2, h32⟩ (quantize_u_eq_unsignedCode hv)

/-- Settles O22: the instructions are the unsigned encode in the two formats. -/
theorem unsignedEncodeResult : Obligations.UnsignedEncodeResult :=
  ⟨fun _ _ s h2 h32 hv => answers_enc_u (F := .s) h2 h32 hv s,
    fun _ _ s h2 h32 hv => answers_enc_u (F := .d) h2 h32 hv s⟩

theorem isCode_readCode_u {w : Nat} {v : PortWord} (hv : v.toNat ≤ 2 ^ w - 1) :
    IsCode .u w (readCode .u v) := by
  have hlt : v.toNat < 2 ^ w := Nat.lt_of_le_pred (by positivity) hv
  have hlt' : (v.toNat : ℤ) < 2 ^ w := by exact_mod_cast hlt
  exact ⟨Int.natCast_nonneg _, Int.le_sub_one_of_lt hlt'⟩

theorem unscale_readCode_u (w : Nat) (v : PortWord) :
    unscale .u w (readCode .u v) = (v.toNat : ℚ) / (2 ^ w - 1) := by
  simp only [unscale, readCode, Int.cast_natCast]

theorem decodeOp_u {F : Fmt} {w : Nat} {v : PortWord} (h2 : 2 ≤ w) (h32 : w ≤ 32)
    (hv : v.toNat ≤ 2 ^ w - 1) :
    decodeOp Config.params .u F w v =
      .ok (floatResult F (roundF F ((v.toNat : ℚ) / (2 ^ w - 1)))) := by
  rw [decodeOp, if_pos ⟨h2, h32⟩, if_pos (isCode_readCode_u hv), unscale_readCode_u]

/-- Settles O25: the instructions are the unsigned decode in the two formats. -/
theorem unsignedDecodeResult : Obligations.UnsignedDecodeResult :=
  ⟨fun _ _ s h2 h32 hv => answers_dec_of (decodeOp_u (F := .s) h2 h32 hv) s,
    fun _ _ s h2 h32 hv => answers_dec_of (decodeOp_u (F := .d) h2 h32 hv) s⟩

/-! ### Which code an encode chooses -/

/-- A tie goes up to a positive integer. -/
theorem le_rndAway {x : ℚ} {n : ℤ} (hn : 1 ≤ n) (h : (n : ℚ) - 1 / 2 ≤ x) : n ≤ rndAway x :=
  rndAway_sub_half hn ▸ rndAway_mono h

theorem rndAway_le {x : ℚ} {n : ℤ} (h : x < n + 1 / 2) : rndAway x ≤ n := by
  have hnear := (abs_le.1 (rndAway_near x)).2
  have hlt : (rndAway x : ℚ) < n + 1 := by linarith
  exact Int.lt_add_one_iff.1 (by exact_mod_cast hlt)

theorem one_le_hi_u {w : Nat} (h : 2 ≤ w) : 1 ≤ hi .u w := by
  have := two_le_pow_pred h
  have := two_pow_half h
  simp only [hi]; omega

section
variable {F : Fmt} {w : Nat} {x : FloatFields}

theorem quantize_u_bottom (h : 2 ≤ w) (hx : fclass F x = .finite)
    (hs : scale .u w (fval F x) < 1 / 2) : quantize Config.params .u F w x = some 0 := by
  have hr : rndAway (scale .u w (fval F x)) ≤ 0 := rndAway_le (by simpa using hs)
  rw [quantize_finite hx]
  exact congrArg some (clampRound_of_rnd_le (lo_le_hi .u h) hr)

theorem quantize_u_of_mem (hx : fclass F x = .finite) {n : ℤ} (hn : 1 ≤ n) (hn' : n ≤ hi .u w)
    (hl : (n : ℚ) - 1 / 2 ≤ scale .u w (fval F x)) (hu : scale .u w (fval F x) < n + 1 / 2) :
    quantize Config.params .u F w x = some n := by
  have hr : rndAway (scale .u w (fval F x)) = n := (rndAway_le hu).antisymm (le_rndAway hn hl)
  rw [quantize_finite hx]
  exact congrArg some ((congrArg (clamp · _ _) hr).trans (clamp_of_mem (zero_le_one.trans hn) hn'))

theorem quantize_u_top (h : 2 ≤ w) (hx : fclass F x = .finite)
    (hs : (hi .u w : ℚ) - 1 / 2 ≤ scale .u w (fval F x)) :
    quantize Config.params .u F w x = some (hi .u w) := by
  rw [quantize_finite hx]
  exact congrArg some (clamp_of_ge (lo_le_hi .u h) (le_rndAway (one_le_hi_u h) hs))

/-! ### The corner cases -/

/-- A zero or a subnormal, of either sign, is finite and at most `2^-64` in magnitude. -/
theorem finite_and_abs_fval_le_of_exp_eq_zero (hx : x.Fits F) (h0 : x.exp = 0) :
    fclass F x = .finite ∧ |fval F x| ≤ (2 : ℚ) ^ (-64 : ℤ) := by
  refine ⟨(fclass_finite_iff F x).2 ?_, not_lt.1 fun hlt => exp_ne_zero_of_lt_abs_fval hx hlt h0⟩
  rw [h0]
  cases F <;> decide

/-- The scaled value of a float of at most `2^-64` is far below one half, the end of code 0. -/
theorem scale_u_lt_half (h2 : 2 ≤ w) (h32 : w ≤ 32) {f : ℚ} (hf : f ≤ (2 : ℚ) ^ (-64 : ℤ)) :
    scale .u w f < 1 / 2 := by
  have hw : (2 : ℚ) ^ w ≤ 2 ^ 32 := pow_le_pow_right₀ (by norm_num) h32
  calc scale .u w f ≤ scale .u w ((2 : ℚ) ^ (-64 : ℤ)) := scale_mono .u h2 hf
    _ ≤ (2 : ℚ) ^ (-64 : ℤ) * (2 ^ 32 - 1) :=
        mul_le_mul_of_nonneg_left (sub_le_sub_right hw 1) (by positivity)
    _ < 1 / 2 := by norm_num

end

/-- Settles O45. The examples are closed facts, which the kernel evaluates. -/
theorem unsignedEncodeCorners : Obligations.UnsignedEncodeCorners := by
  refine ⟨fun F w v h2 h32 => ?_, answers_enc_of (c := .u) (F := .d) (by decide +kernel),
    answers_enc_of (c := .u) (F := .d) (by decide +kernel),
    answers_enc_of (c := .u) (F := .d) (by decide +kernel)⟩
  have answer {n : ℤ} (h : quantize Config.params .u F w (floatOperand F v) = some n) :
      Answers (enc .u F w v) (.ok (widen n)) := answers_enc_of_quantize ⟨h2, h32⟩ h
  have zero_of_tiny (hx : FiniteOn F v) (hf : valueOn F v ≤ (2 : ℚ) ^ (-64 : ℤ)) :
      Answers (enc .u F w v) (.ok 0#64) := answer (quantize_u_bottom h2 hx (scale_u_lt_half h2 h32 hf))
  refine ⟨fun hc => answer (quantize_posInf hc), fun hc => answer (quantize_negInf hc),
    fun hx hf => zero_of_tiny hx (hf.trans (by positivity)), fun hx hf => ?_, fun hexp => ?_,
    fun hx hf => answer (quantize_u_half _ h2 hx hf)⟩
  · have hscale := scale_mono .u h2 hf
    rw [scale_one .u h2] at hscale
    exact answer (quantize_u_top h2 hx (by linarith))
  · obtain ⟨hx, hf⟩ := finite_and_abs_fval_le_of_exp_eq_zero (floatOperand_fits F v) hexp
    exact zero_of_tiny hx ((le_abs_self _).trans hf)

/-! ### The codec at W = 2 -/

/-- A float is dyadic, so among the sixths only the halves are floats. -/
theorem three_dvd_of_fval_eq_sixths {F : Fmt} {x : FloatFields} {m : ℤ} (h : fval F x = m / 6) :
    3 ∣ m := by
  obtain ⟨b, a, ha⟩ := fval_dyadic F x
  have hdyadic : (2 * fval F x) * 2 ^ b = (2 * a : ℤ) := by rw [mul_assoc, ha]; push_cast; rfl
  have hthree : (2 * fval F x) * ((3 : ℤ) : ℚ) = m := by rw [h]; push_cast; ring
  obtain ⟨k, hk⟩ := int_of_dyadic_mul_odd hdyadic (by decide) hthree
  refine ⟨k, ?_⟩
  rw [hk, mul_comm] at hthree
  exact_mod_cast hthree.symm

theorem scale_u_two (f : ℚ) : scale .u 2 f = 3 * f := by
  simp only [scale]; ring

/-- Settles O46: the scaled value is `3 f`, so the thresholds lie where it is `n - 1/2`. -/
theorem unsignedWidthTwo : Obligations.UnsignedWidthTwo := by
  refine ⟨fun n => ?_, by norm_num [unscale], by norm_num [unscale], by norm_num [unscale],
    by norm_num [unscale], by norm_num [scale], by norm_num [scale], by norm_num [scale],
    by decide +kernel, by decide +kernel, by decide +kernel, fun F v hx => ?_⟩
  · simp only [IsCode, lo, hi]; omega
  have answer {n : ℤ} (h : quantize Config.params .u F 2 (floatOperand F v) = some n) :
      Answers (enc .u F 2 v) (.ok (widen n)) := answers_enc_of_quantize ⟨le_rfl, by decide⟩ h
  have hscale := scale_u_two (valueOn F v)
  have no_float {m : ℤ} (hm : ¬ 3 ∣ m) : valueOn F v ≠ m / 6 := mt three_dvd_of_fval_eq_sixths hm
  refine ⟨by simpa using no_float (m := 1) (by decide), by simpa using no_float (m := 5) (by decide),
    fun h => ?_, fun hl hu => ?_, fun hl hu => ?_, fun h => ?_⟩
  · exact answer (quantize_u_bottom le_rfl hx (by linarith))
  · exact answer (quantize_u_of_mem hx (n := 1) le_rfl (by decide) (by push_cast; linarith)
      (by push_cast; linarith))
  · exact answer (quantize_u_of_mem hx (n := 2) (by decide) (by decide) (by push_cast; linarith)
      (by push_cast; linarith))
  · have htop : (hi .u 2 : ℚ) = 3 := by norm_num [hi]
    exact answer (quantize_u_top le_rfl hx (by rw [htop]; linarith))

/-! ### The decode to binary64 is strictly increasing -/

/-- On the quotients of R103, which are at most 1 in magnitude, `round_F` errs by at most half a unit in
the last place of 1. -/
theorem roundF_near (F : Fmt) {q : ℚ} (hq : IsQuotient q) :
    |fval F (roundF F q) - q| ≤ (2 : ℚ) ^ (-(fracBits F : ℤ)) / 2 := by
  by_cases h0 : q = 0
  · rw [h0, fval_roundF_zero, sub_zero, abs_zero]; positivity
  have ha := abs_pos.2 h0
  obtain ⟨-, hone⟩ := hq.resolve_left h0
  have hexp : ilog2 |q| ≤ 0 := by
    have hone' : ilog2 1 = 0 := ilog2_eq (by norm_num) (by norm_num)
    exact hone' ▸ ilog2_mono ha hone
  obtain ⟨-, -, hnear⟩ := significand_spec F ha
  have hu : (0 : ℚ) < 2 ^ (ilog2 |q| - (fracBits F : ℤ)) := by positivity
  calc |fval F (roundF F q) - q|
      = |significand F |q| - (|q|) / 2 ^ (ilog2 |q| - (fracBits F : ℤ))| *
          2 ^ (ilog2 |q| - (fracBits F : ℤ)) := by
        rw [(roundF_magnitude F h0 hq).2, abs_mul_sub_eq hu]
    _ ≤ 1 / 2 * 2 ^ (ilog2 |q| - (fracBits F : ℤ)) := by gcongr
    _ ≤ 1 / 2 * 2 ^ (-(fracBits F : ℤ)) := by
        gcongr
        · norm_num
        · omega
    _ = 2 ^ (-(fracBits F : ℤ)) / 2 := by ring

/-- Quotients that lie farther apart than the unit in the last place of 1 stay apart. -/
theorem roundF_lt_roundF (F : Fmt) {q q' : ℚ} (hq : IsQuotient q) (hq' : IsQuotient q')
    (h : (2 : ℚ) ^ (-(fracBits F : ℤ)) < q' - q) : fval F (roundF F q) < fval F (roundF F q') := by
  have hup := (abs_le.1 (roundF_near F hq)).2
  have hdown := (abs_le.1 (roundF_near F hq')).1
  linarith

/-- The exact values of two codes of `U` lie at least one step apart. -/
theorem oneStep_le_unscale_u_sub {w : Nat} (h : 2 ≤ w) {m n : ℤ} (hmn : m < n) :
    oneStep .u w ≤ unscale .u w n - unscale .u w m := by
  have hspan := three_le_codeSpan h
  have hapart : (1 : ℚ) ≤ n - m := by exact_mod_cast Int.le_sub_left_of_add_le hmn
  rw [oneStep, unscale, unscale, ← sub_div]
  exact div_le_div_of_nonneg_right hapart (by linarith)

/-- Every step of `U` is wider than the unit in the last place of 1 in binary64. -/
theorem ulp_lt_oneStep_u {w : Nat} (h2 : 2 ≤ w) (h32 : w ≤ 32) :
    (2 : ℚ) ^ (-(fracBits .d : ℤ)) < oneStep .u w := by
  have hspan := three_le_codeSpan h2
  have hw : (2 : ℚ) ^ w ≤ 2 ^ 32 := pow_le_pow_right₀ (by norm_num) h32
  calc (2 : ℚ) ^ (-(fracBits .d : ℤ)) < 1 / (2 ^ 32 - 1) := by norm_num [fracBits]
    _ ≤ oneStep .u w := one_div_le_one_div_of_le (by linarith) (by linarith)

/-- Settles O47. -/
theorem unsignedDoubleDecodeStrict : Obligations.UnsignedDoubleDecodeStrict := by
  intro w m n h2 h32 hmn hn
  have hm : m.toNat ≤ 2 ^ w - 1 := hmn.le.trans hn
  have hym := decodeOp_u (F := .d) h2 h32 hm
  have hyn := decodeOp_u (F := .d) h2 h32 hn
  refine ⟨_, _, answers_dec_of hym, answers_dec_of hyn, ?_⟩
  have hcodes : readCode .u m < readCode .u n := Int.ofNat_lt.2 hmn
  have hgap := (ulp_lt_oneStep_u h2 h32).trans_le (oneStep_le_unscale_u_sub h2 hcodes)
  have h64 : w ≤ 64 := h32.trans (by decide)
  rw [valueOn, valueOn, (decodeOp_ok_spec config_legal hym).1, (decodeOp_ok_spec config_legal hyn).1]
  exact roundF_lt_roundF .d (isQuotient_unscale h2 h64 (isCode_readCode_u hm))
    (isQuotient_unscale h2 h64 (isCode_readCode_u hn)) hgap

end Sys2Proof.Machine
end

section
/-! # The signed codec with zero (spec/42_signed_with_zero.md R140 to R145)

An encode of any codec answers the code that its scale and range give (`answers_enc_of_ne_nan`), a decode
the rounded exact value of its operand (`answers_dec_of_isCode`). For `SZ` the scale is odd and so is the
rounding, and inverting the sign bit negates the value (`floatOperand_xor_signBit`): hence the odd encode.
The extra code is the one at which the clamp meets the rounding, whose tie goes away from zero
(`quantize_sz_eq_lo_iff`). -/

namespace Sys2Proof.Machine

/-! ### What the operations of a codec answer -/

/-- The code of an encode under this hardware's tie rule, the formula of R140 and R141 with the codec's
scale and range. -/
def encodeCode (c : Codec) (F : Fmt) (w : Nat) (x : FloatFields) : ℤ :=
  match fclass F x with
  | .posInf => hi c w
  | .negInf => lo c w
  | _ => clamp (rndAway (scale c w (fval F x))) (lo c w) (hi c w)

theorem quantize_eq_encodeCode (c : Codec) {F : Fmt} (w : Nat) {x : FloatFields}
    (hx : fclass F x ≠ .nan) : quantize Config.params c F w x = some (encodeCode c F w x) := by
  unfold encodeCode
  obtain ⟨hc, -⟩ | ⟨hc, e⟩ | ⟨hc, e⟩ | ⟨hc, e⟩ := quantize_cases Config.params c F w x
  · exact absurd hc hx
  · rw [e, hc]
  · rw [e, hc]
  · rw [e, hc]; rfl

theorem answers_enc_of_ne_nan {c : Codec} {F : Fmt} {w : Nat} {v : PortWord}
    (hw : LegalWidth Config.params c w) (hv : fclass F (floatOperand F v) ≠ .nan) :
    Answers (enc c F w v) (.ok (widen (encodeCode c F w (floatOperand F v)))) :=
  answers_enc_of_quantize hw (quantize_eq_encodeCode c w hv)

theorem answers_dec_of_isCode {c : Codec} (F : Fmt) {w : Nat} {v : PortWord}
    (hw : LegalWidth Config.params c w) (hv : IsCode c w (readCode c v)) :
    Answers (dec c F w v) (.ok (floatResult F (roundF F (unscale c w (readCode c v))))) :=
  answers_dec_of (by rw [decodeOp, if_pos hw, if_pos hv])

/-- Settles O23: the instructions are the encode of `SZ` in the two formats. -/
theorem signedWithZeroEncodeResult : Obligations.SignedWithZeroEncodeResult :=
  ⟨fun _ _ s h2 h64 hv => answers_enc_of_ne_nan (c := .sz) (F := .s) ⟨h2, h64⟩ hv s,
    fun _ _ s h2 h64 hv => answers_enc_of_ne_nan (c := .sz) (F := .d) ⟨h2, h64⟩ hv s⟩

/-- Settles O26: the instructions are the decode of `SZ` in the two formats. -/
theorem signedWithZeroDecodeResult : Obligations.SignedWithZeroDecodeResult :=
  ⟨fun _ _ s h2 h64 hl hu => answers_dec_of_isCode (c := .sz) .s ⟨h2, h64⟩ ⟨hl, hu⟩ s,
    fun _ _ s h2 h64 hl hu => answers_dec_of_isCode (c := .sz) .d ⟨h2, h64⟩ ⟨hl, hu⟩ s⟩

/-! ### Codes on the port -/

/-- Different codes are different words. -/
theorem widen_inj {c : Codec} {w : Nat} (h2 : 2 ≤ w) (h64 : w ≤ 64) {m n : ℤ} (hm : IsCode c w m)
    (hn : IsCode c w n) : widen m = widen n ↔ m = n := by
  refine ⟨fun h => ?_, congrArg widen⟩
  rw [← readCode_widen c h2 h64 hm, h, readCode_widen c h2 h64 hn]

/-- An encode answers a code exactly when the operand quantizes to it. -/
theorem answers_enc_iff_of_quantize {c : Codec} {F : Fmt} {w : Nat} {v : PortWord} {m n : ℤ}
    (hw : LegalWidth Config.params c w) (hm : IsCode c w m)
    (h : quantize Config.params c F w (floatOperand F v) = some n) :
    Answers (enc c F w v) (.ok (widen m)) ↔ n = m := by
  have hn := answers_enc_of_quantize hw h
  rw [← widen_inj hw.1 (hw.2.trans (wmax_le config_legal c)) (quantize_isCode hw.1 h) hm]
  exact ⟨fun hm => Response.ok.inj (answers_unique hn hm), fun e => e ▸ hn⟩

/-- The decode of a widened code. -/
theorem answers_dec_widen {c : Codec} (F : Fmt) {w : Nat} {n : ℤ}
    (hw : LegalWidth Config.params c w) (hn : IsCode c w n) :
    Answers (dec c F w (widen n)) (.ok (floatResult F (roundF F (unscale c w n)))) := by
  have hread := readCode_widen c hw.1 (hw.2.trans (wmax_le config_legal c)) hn
  have h := answers_dec_of_isCode F (v := widen n) hw (hread.symm ▸ hn)
  rwa [hread] at h

/-! ### The operand of the opposite sign -/

/-- Inverting the sign bit of the port word inverts the sign field alone. -/
theorem floatOperand_xor_signBit (F : Fmt) (v : PortWord) :
    floatOperand F (v ^^^ signBit F) =
      { floatOperand F v with sign := !(floatOperand F v).sign } := by
  cases F with
  | s =>
    simp [floatOperand, fieldsS, signBit, BitVec.extractLsb_xor]
  | d =>
    simp [floatOperand, fieldsD, signBit, BitVec.extractLsb_xor]

theorem finiteOn_xor_signBit {F : Fmt} {v : PortWord} (h : FiniteOn F v) :
    FiniteOn F (v ^^^ signBit F) := by
  rw [FiniteOn, fclass_finite_iff] at *
  rwa [floatOperand_xor_signBit]

theorem signFactor_not (s : Bool) : signFactor (!s) = -signFactor s := by
  cases s <;> simp [signFactor]

theorem fval_sign_not (F : Fmt) (x : FloatFields) : fval F { x with sign := !x.sign } = -fval F x := by
  rw [fval_eq, fval_eq, signFactor_not, neg_mul, neg_mul]; rfl

theorem valueOn_xor_signBit (F : Fmt) (v : PortWord) :
    valueOn F (v ^^^ signBit F) = -valueOn F v := by
  rw [valueOn, floatOperand_xor_signBit, fval_sign_not]

/-! ### The encode in the domain -/

/-- In the domain the clamp has nothing to do (R101). -/
theorem quantize_of_inDomain (p : Params) {c : Codec} {F : Fmt} {w : Nat} (h : 2 ≤ w) {x : FloatFields}
    (hx : fclass F x = .finite) (hf : InDomain c (fval F x)) :
    quantize p c F w x = some (rnd p.tie (scale c w (fval F x))) := by
  obtain ⟨hl, hu⟩ := scale_mem_of_inDomain h hf
  rw [quantize_finite hx, clampRound_of_mem hl hu]

theorem inDomain_sz_neg {f : ℚ} (hf : InDomain .sz f) : InDomain .sz (-f) :=
  ⟨neg_le_neg hf.2, neg_le.1 hf.1⟩

theorem scale_sz_neg (w : Nat) (f : ℚ) : scale .sz w (-f) = -scale .sz w f := neg_mul _ _

/-- The codes of in-domain inputs are `-M` to `M` (R145). -/
theorem rnd_scale_sz_mem (t : Tie) {w : Nat} (h : 2 ≤ w) {f : ℚ} (hf : InDomain .sz f) :
    lo .sz w + 1 ≤ rnd t (scale .sz w f) ∧ rnd t (scale .sz w f) ≤ hi .sz w := by
  refine rnd_mem t ?_ ?_
  · exact scale_sz_neg_one w ▸ scale_mono .sz h hf.1
  · exact scale_one .sz h ▸ scale_mono .sz h hf.2

/-- The encode of `SZ` is odd in the domain (R140): the scale and the rounding are. -/
theorem quantize_sz_xor_signBit {F : Fmt} {w : Nat} (h : 2 ≤ w) {v : PortWord} (hv : FiniteOn F v)
    (hf : InDomain .sz (valueOn F v)) :
    quantize Config.params .sz F w (floatOperand F (v ^^^ signBit F)) =
      some (-rndAway (scale .sz w (valueOn F v))) := by
  have hval : fval F (floatOperand F (v ^^^ signBit F)) = -valueOn F v := valueOn_xor_signBit F v
  rw [quantize_of_inDomain _ h (finiteOn_xor_signBit hv) (hval ▸ inDomain_sz_neg hf), hval,
    scale_sz_neg, ← rndAway_neg]
  rfl

/-! ### The extra negative code -/

theorem le_rndAway_iff {x : ℚ} {n : ℤ} (hn : 1 ≤ n) : n ≤ rndAway x ↔ (n : ℚ) - 1 / 2 ≤ x := by
  refine ⟨fun h => ?_, le_rndAway hn⟩
  by_contra! hlt
  have hpred : rndAway x ≤ n - 1 := rndAway_le (by push_cast; linarith)
  omega

/-- A tie goes down to a negative integer. -/
theorem rndAway_le_neg_iff {x : ℚ} {n : ℤ} (hn : 1 ≤ n) :
    rndAway x ≤ -n ↔ x ≤ -((n : ℚ) - 1 / 2) := by
  rw [le_neg, ← rndAway_neg, le_rndAway_iff hn, le_neg]

theorem clamp_eq_low_iff {n l h : ℤ} (hlh : l < h) : clamp n l h = l ↔ n ≤ l := by
  unfold clamp
  split_ifs <;> omega

theorem lo_sz_lt_hi {w : Nat} (h : 2 ≤ w) : lo .sz w < hi .sz w := by
  have := two_le_pow_pred h
  simp only [lo, hi]; omega

/-- The threshold of the extra code (R140): the scaled value is at most `-(M + 1/2)`. -/
theorem quantize_sz_eq_lo_iff {F : Fmt} {w : Nat} (h : 2 ≤ w) {x : FloatFields}
    (hx : fclass F x = .finite) :
    quantize Config.params .sz F w x = some (lo .sz w) ↔
      fval F x ≤ -((2 ^ (w - 1) - 1 + 1 / 2) / (2 ^ (w - 1) - 1)) := by
  have hM := one_le_codeMax h
  have hpow : (1 : ℤ) ≤ 2 ^ (w - 1) := one_le_two.trans (two_le_pow_pred h)
  calc quantize Config.params .sz F w x = some (lo .sz w)
      ↔ clamp (rndAway (scale .sz w (fval F x))) (lo .sz w) (hi .sz w) = lo .sz w := by
        rw [quantize_finite hx, Option.some_inj]; rfl
    _ ↔ rndAway (scale .sz w (fval F x)) ≤ -2 ^ (w - 1) := clamp_eq_low_iff (lo_sz_lt_hi h)
    _ ↔ fval F x * (2 ^ (w - 1) - 1) ≤ -(2 ^ (w - 1) - 1 + 1 / 2) := by
        rw [rndAway_le_neg_iff hpow, scale]; push_cast; ring_nf
    _ ↔ _ := by rw [← neg_div, le_div_iff₀ (by linarith)]

/-- The quotient of `-M` is -1, as that of the extra code is (`unscale_lo`). -/
theorem unscale_sz_lo_add_one {w : Nat} (h : 2 ≤ w) : unscale .sz w (lo .sz w + 1) = -1 := by
  have hM := one_le_codeMax h
  have hq : ((lo .sz w + 1 : ℤ) : ℚ) / (2 ^ (w - 1) - 1) = -1 := by
    rw [← scale_sz_neg_one, scale, mul_div_assoc, div_self (by linarith), mul_one]
  rw [unscale, hq, max_self]

theorem floatResult_roundF_neg_one (F : Fmt) : floatResult F (roundF F (-1)) = negOnePattern F := by
  rw [roundF_neg_one]
  cases F <;> decide

/-! ### The code of zero -/

/-- Rounding a quotient to a float keeps it from zero. -/
theorem fval_roundF_eq_zero_iff (F : Fmt) {q : ℚ} (hq : IsQuotient q) :
    fval F (roundF F q) = 0 ↔ q = 0 := by
  refine ⟨fun h => ?_, fun h => h ▸ fval_roundF_zero F⟩
  by_contra h0
  obtain ⟨hsig, -, -⟩ := significand_spec F (abs_pos.2 h0)
  have hsig' : (0 : ℚ) < significand F |q| := by exact_mod_cast hsig.trans_lt' (by positivity)
  have hpos : 0 < |fval F (roundF F q)| := by
    rw [(roundF_magnitude F h0 hq).1]; positivity
  exact abs_pos.1 hpos h

/-- Only code 0 stands for zero (R144): the first clause of O34. -/
theorem unscale_sz_eq_zero_iff {w : Nat} (h2 : 2 ≤ w) (h64 : w ≤ 64) {n : ℤ} (hn : IsCode .sz w n) :
    unscale .sz w n = 0 ↔ n = 0 := by
  have hread := readCode_widen .sz h2 h64 hn
  obtain ⟨hzero, -⟩ := decodeResultRange Config.params .sz .d w (widen n) config_legal ⟨h2, h64⟩
    (hread.symm ▸ hn)
  simpa [hread] using hzero

/-- Settles O48: the odd encode, the threshold, the two codes of -1.0 and the one code of zero, each by its
lemma above. -/
theorem extraNegativeCode : Obligations.ExtraNegativeCode := by
  intro F w h2 h64
  have hw : LegalWidth Config.params .sz w := ⟨h2, h64⟩
  have hlo : IsCode .sz w (lo .sz w) := ⟨le_rfl, lo_le_hi .sz h2⟩
  have hlo' : IsCode .sz w (lo .sz w + 1) := ⟨(Int.lt_succ _).le, lo_sz_lt_hi h2⟩
  have hM : lo .sz w + 1 = -(2 ^ (w - 1) - 1) := by simp only [lo]; ring
  refine ⟨fun v hv hf => ?_, fun v hv => ?_, ?_, ?_, fun n y hn hy => ?_⟩
  · obtain ⟨hl, hu⟩ := rnd_scale_sz_mem .away h2 hf
    exact ⟨rndAway (scale .sz w (valueOn F v)), hM ▸ hl, hu,
      answers_enc_of_quantize hw (quantize_of_inDomain _ h2 hv hf),
      answers_enc_of_quantize hw (quantize_sz_xor_signBit h2 hv hf)⟩
  · have hq := quantize_eq_encodeCode .sz w (x := floatOperand F v) (by rw [hv]; decide)
    have hiff := quantize_sz_eq_lo_iff h2 hv
    rw [hq, Option.some_inj] at hiff
    exact (answers_enc_iff_of_quantize hw hlo hq).trans hiff
  · have h := answers_dec_widen F hw hlo
    rwa [unscale_lo .sz h2, domainLow, floatResult_roundF_neg_one] at h
  · have h := answers_dec_widen F hw hlo'
    rwa [unscale_sz_lo_add_one h2, floatResult_roundF_neg_one, hM] at h
  · obtain rfl := Response.ok.inj (answers_unique hy (answers_dec_widen F hw hn))
    have hq := isQuotient_unscale h2 h64 hn
    rw [valueOn, floatOperand_floatResult F (roundF_fits_finite F hq).1,
      fval_roundF_eq_zero_iff F hq, unscale_sz_eq_zero_iff h2 h64 hn]

end Sys2Proof.Machine
end

section
/-! # The signed codec without zero (spec/43_signed_without_zero.md R160 to R165)

The codes pair off as `n` and `-n - 1`: the scale takes `-f` to `-x - 1` where it takes `f` to `x`, and the
exact values of a pair are opposite (`scale_sn_neg`, `unscale_sn_neg_sub_one`). Off a tie the integer
rounding keeps the pair (`rnd_neg_sub_one`), and the only tie in the domain is zero; the rounding to a float
keeps the magnitude and inverts the sign bit (`floatResult_roundF_neg`). -/

namespace Sys2Proof.Machine

/-! ### What the four operations answer -/

/-- Settles O24: the instructions are the encode of `SN` in the two formats. -/
theorem signedWithoutZeroEncodeResult : Obligations.SignedWithoutZeroEncodeResult :=
  ⟨fun _ _ s h2 h64 hv => answers_enc_of_ne_nan (c := .sn) (F := .s) ⟨h2, h64⟩ hv s,
    fun _ _ s h2 h64 hv => answers_enc_of_ne_nan (c := .sn) (F := .d) ⟨h2, h64⟩ hv s⟩

/-- Settles O27: the instructions are the decode of `SN` in the two formats. -/
theorem signedWithoutZeroDecodeResult : Obligations.SignedWithoutZeroDecodeResult :=
  ⟨fun _ _ s h2 h64 hl hu => answers_dec_of_isCode (c := .sn) .s ⟨h2, h64⟩ ⟨hl, hu⟩ s,
    fun _ _ s h2 h64 hl hu => answers_dec_of_isCode (c := .sn) .d ⟨h2, h64⟩ ⟨hl, hu⟩ s⟩

/-! ### The encode of an operand and of its negation -/

theorem inDomain_sn_neg {f : ℚ} (hf : InDomain .sn f) : InDomain .sn (-f) :=
  ⟨neg_le_neg hf.2, neg_le.1 hf.1⟩

theorem scale_sn_neg (w : Nat) (f : ℚ) : scale .sn w (-f) = -scale .sn w f - 1 := by
  simp only [scale]; ring

/-- Off a tie the rounding keeps the pairs `x` and `-x - 1`. -/
theorem rnd_neg_sub_one (t : Tie) {x : ℚ} (h : ¬ IsTie x) : rnd t (-x - 1) = -rnd t x - 1 := by
  have hnear : |(rnd t x : ℚ) - x| < 1 / 2 :=
    (rnd_near t x).lt_of_ne (mt isTie_of_abs_sub_eq_half h)
  have hpair : ((-rnd t x - 1 : ℤ) : ℚ) - (-x - 1) = -(rnd t x - x) := by push_cast; ring
  exact rnd_eq_of_near t (by rwa [hpair, abs_neg])

/-- Zero is the only tie of `SN` in the domain (R98, R160). -/
theorem not_isTie_scale_sn {F : Fmt} {w : Nat} (h : 2 ≤ w) {x : FloatFields}
    (hf : InDomain .sn (fval F x)) (h0 : fval F x ≠ 0) : ¬ IsTie (scale .sn w (fval F x)) := by
  intro htie
  obtain ⟨hc, -⟩ | ⟨hc, -⟩ | ⟨-, hzero⟩ := inDomain_tie_cases h htie hf
  · cases hc
  · cases hc
  · exact h0 hzero

/-- This hardware rounds the tie of a zero away from zero. -/
theorem quantize_sn_zero_away {F : Fmt} {w : Nat} (h : 2 ≤ w) {x : FloatFields}
    (hx : fclass F x = .finite) (hf : fval F x = 0) :
    quantize Config.params .sn F w x = some (-1) := by
  obtain ⟨-, -, haway, -⟩ := rnd_half
  exact (quantize_sn_zero _ h hx hf).trans (congrArg some haway)

/-- The code of the negation of an in-domain operand that is not zero (R160). -/
theorem quantize_sn_xor_signBit (p : Params) {F : Fmt} {w : Nat} (h : 2 ≤ w) {v : PortWord}
    (hv : FiniteOn F v) (hf : InDomain .sn (valueOn F v)) (h0 : valueOn F v ≠ 0) :
    quantize p .sn F w (floatOperand F (v ^^^ signBit F)) =
      some (-rnd p.tie (scale .sn w (valueOn F v)) - 1) := by
  have hval : fval F (floatOperand F (v ^^^ signBit F)) = -valueOn F v := valueOn_xor_signBit F v
  rw [quantize_of_inDomain p h (finiteOn_xor_signBit hv) (hval ▸ inDomain_sn_neg hf), hval,
    scale_sn_neg, rnd_neg_sub_one _ (not_isTie_scale_sn h hf h0)]

/-! ### The decode of a code and of its partner -/

theorem isCode_sn_neg_sub_one {w : Nat} {n : ℤ} (hn : IsCode .sn w n) : IsCode .sn w (-n - 1) := by
  simp only [IsCode, lo, hi] at *
  omega

theorem unscale_sn_neg_sub_one (w : Nat) (n : ℤ) : unscale .sn w (-n - 1) = -unscale .sn w n := by
  simp only [unscale]; push_cast; ring

/-- No code stands for zero: the numerator is odd (R159, R164). -/
theorem unscale_sn_ne_zero {w : Nat} (h : 2 ≤ w) (n : ℤ) : unscale .sn w n ≠ 0 := by
  have hnum : (2 * n + 1 : ℚ) ≠ 0 := by exact_mod_cast (by omega : 2 * n + 1 ≠ 0)
  have hspan := three_le_codeSpan h
  exact div_ne_zero hnum (by linarith)

/-- The sign goes into its field alone. -/
theorem normalFields_not (F : Fmt) (s : Bool) (e n : ℤ) :
    normalFields F (!s) e n = { normalFields F s e n with sign := !(normalFields F s e n).sign } := by
  unfold normalFields
  split_ifs <;> rfl

/-- Rounding to a float is odd but for the sign of a zero (R104): it works on the magnitude. -/
theorem roundF_neg (F : Fmt) {q : ℚ} (h0 : q ≠ 0) :
    roundF F (-q) = { roundF F q with sign := !(roundF F q).sign } := by
  have hsign : decide (-q < 0) = !decide (q < 0) := by
    rcases h0.lt_or_gt with h | h <;> simp [h, h.le]
  rw [roundF, if_neg (neg_ne_zero.2 h0), abs_neg, hsign, normalFields_not, roundF, if_neg h0]

theorem ofBool_not (s : Bool) : BitVec.ofBool (!s) = BitVec.ofBool s ^^^ 1#1 := by
  cases s <;> rfl

/-- Inverting the sign field inverts the sign bit of the placed float alone (R65, R95). -/
theorem floatResult_sign_not (F : Fmt) (x : FloatFields) :
    floatResult F { x with sign := !x.sign } = floatResult F x ^^^ signBit F := by
  cases F with
  | s =>
    have hbit : signBit .s = (1#1 ++ 0#8 ++ 0#23).setWidth 64 := by decide
    rw [floatResult, floatResult, hbit, ← BitVec.setWidth_xor, packS, packS, BitVec.xor_append,
      BitVec.xor_append, ofBool_not, BitVec.xor_zero, BitVec.xor_zero]
  | d =>
    have hbit : signBit .d = 1#1 ++ 0#11 ++ 0#52 := by decide
    rw [floatResult, floatResult, hbit, packD, packD, BitVec.xor_append, BitVec.xor_append,
      ofBool_not, BitVec.xor_zero, BitVec.xor_zero]

theorem floatResult_roundF_neg (F : Fmt) {q : ℚ} (h0 : q ≠ 0) :
    floatResult F (roundF F (-q)) = floatResult F (roundF F q) ^^^ signBit F := by
  rw [roundF_neg F h0, floatResult_sign_not]

/-- Settles O49: the tie of zero, the encode of the negation and the decode of the partner, each by its lemma
above. -/
theorem withoutZeroSymmetry : Obligations.WithoutZeroSymmetry := by
  intro F w h2 h64
  have hw : LegalWidth Config.params .sn w := ⟨h2, h64⟩
  refine ⟨fun v hv h0 => ?_, fun v hv hf h0 => ?_, fun n hn => ?_⟩
  · exact answers_enc_of_quantize hw (quantize_sn_zero_away h2 hv h0)
  · exact ⟨_, answers_enc_of_quantize hw (quantize_of_inDomain _ h2 hv hf),
      answers_enc_of_quantize hw (quantize_sn_xor_signBit _ h2 hv hf h0)⟩
  · have hpartner := answers_dec_widen F hw (isCode_sn_neg_sub_one hn)
    rw [unscale_sn_neg_sub_one, floatResult_roundF_neg F (unscale_sn_ne_zero h2 n)] at hpartner
    exact ⟨_, answers_dec_widen F hw hn, hpartner⟩

/-! ### The codec at W = 2 -/

/-- A code within less than half of the scaled value is the code of the operand. -/
theorem quantize_of_near (p : Params) {c : Codec} {F : Fmt} {w : Nat} {x : FloatFields}
    (hx : fclass F x = .finite) {n : ℤ} (hn : IsCode c w n)
    (h : |(n : ℚ) - scale c w (fval F x)| < 1 / 2) : quantize p c F w x = some n := by
  rw [quantize_finite hx, clampRound, rnd_eq_of_near p.tie h, clamp_of_mem hn.1 hn.2]

theorem scale_sn_two (f : ℚ) : scale .sn 2 f = (3 * f - 1) / 2 := by
  simp only [scale]; ring

theorem isCode_sn_two_iff (n : ℤ) : IsCode .sn 2 n ↔ n = -2 ∨ n = -1 ∨ n = 0 ∨ n = 1 := by
  simp only [IsCode, lo, hi]; omega

/-- Settles O50: the scaled value is `(3 f - 1)/2`, and in each interval it lies within less than half of the
interval's code. The results of the table are closed facts, which the kernel evaluates. -/
theorem withoutZeroWidthTwo : Obligations.WithoutZeroWidthTwo := by
  refine ⟨isCode_sn_two_iff, by norm_num [unscale], by norm_num [unscale], by norm_num [unscale],
    by norm_num [unscale], answers_dec_of (c := .sn) (F := .d) (by decide +kernel),
    answers_dec_of (c := .sn) (F := .d) (by decide +kernel),
    answers_dec_of (c := .sn) (F := .d) (by decide +kernel),
    answers_dec_of (c := .sn) (F := .d) (by decide +kernel),
    answers_dec_of (c := .sn) (F := .s) (by decide +kernel),
    answers_dec_of (c := .sn) (F := .s) (by decide +kernel),
    answers_dec_of (c := .sn) (F := .s) (by decide +kernel),
    answers_dec_of (c := .sn) (F := .s) (by decide +kernel),
    (isTie_iff _).2 ⟨-2, by norm_num⟩, (isTie_iff _).2 ⟨-1, by norm_num⟩, fun F v hx => ?_⟩
  have answer {n : ℤ} (h : quantize Config.params .sn F 2 (floatOperand F v) = some n) :
      Answers (enc .sn F 2 v) (.ok (widen n)) := answers_enc_of_quantize ⟨le_rfl, by decide⟩ h
  have hscale := scale_sn_two (valueOn F v)
  have near {n : ℤ} (hn : IsCode .sn 2 n) (hl : (n : ℚ) - 1 / 2 < (3 * valueOn F v - 1) / 2)
      (hu : (3 * valueOn F v - 1) / 2 < n + 1 / 2) : Answers (enc .sn F 2 v) (.ok (widen n)) := by
    refine answer (quantize_of_near _ hx hn ?_)
    rw [hscale, abs_lt]
    constructor <;> linarith
  have no_float {m : ℤ} (hm : ¬ 3 ∣ m) : valueOn F v ≠ m / 6 := mt three_dvd_of_fval_eq_sixths hm
  refine ⟨?_, ?_, ?_, fun hl hu => ?_, fun hl hu => ?_,
    fun h0 => answer (quantize_sn_zero_away le_rfl hx h0), fun hl hu => ?_, fun hl hu => ?_⟩
  · convert no_float (m := -4) (by decide) using 1; norm_num
  · convert no_float (m := 4) (by decide) using 1; norm_num
  · rw [← hscale]
    exact answer (quantize_finite hx)
  · exact near (n := -2) (by decide) (by push_cast; linarith) (by push_cast; linarith)
  · exact near (n := -1) (by decide) (by push_cast; linarith) (by push_cast; linarith)
  · exact near (n := 0) (by decide) (by push_cast; linarith) (by push_cast; linarith)
  · exact near (n := 1) (by decide) (by push_cast; linarith) (by push_cast; linarith)

end Sys2Proof.Machine
end

section
/-! # The boundary inputs and zero (spec/44_guaranteed_properties.md R180 to R183, R186)

At a boundary input the scaled value is an integer, which is its own code (`answers_enc_of_scale_eq`), and the
quotient of that code is the input, which `round_F` answers exactly. Zero is such an input for `U` and `SZ`;
of `SN` no quotient is 0, and rounding to a float keeps it from zero. -/

namespace Sys2Proof.Machine

/-! ### An integer scaled value -/

theorem answers_enc_of_scale_eq {c : Codec} {F : Fmt} {w : Nat} {v : PortWord} {n : ℤ}
    (hw : LegalWidth Config.params c w) (hv : FiniteOn F v) (hn : IsCode c w n)
    (h : scale c w (valueOn F v) = n) : Answers (enc c F w v) (.ok (widen n)) :=
  answers_enc_of_quantize hw (quantize_of_near _ hv hn (by rw [h, sub_self]; norm_num))

theorem answers_dec_of_unscale_eq {c : Codec} (F : Fmt) {w : Nat} {n : ℤ} {q : ℚ}
    (hw : LegalWidth Config.params c w) (hn : IsCode c w n) (h : unscale c w n = q) :
    Answers (dec c F w (widen n)) (.ok (floatResult F (roundF F q))) :=
  h ▸ answers_dec_widen F hw hn

theorem isCode_hi (c : Codec) {w : Nat} (h : 2 ≤ w) : IsCode c w (hi c w) := ⟨lo_le_hi c h, le_rfl⟩

theorem isCode_lo (c : Codec) {w : Nat} (h : 2 ≤ w) : IsCode c w (lo c w) := ⟨le_rfl, lo_le_hi c h⟩

theorem isCode_sz_lo_add_one {w : Nat} (h : 2 ≤ w) : IsCode .sz w (lo .sz w + 1) :=
  ⟨(Int.lt_succ _).le, lo_sz_lt_hi h⟩

theorem lo_sz_add_one (w : Nat) : lo .sz w + 1 = -(2 ^ (w - 1) - 1) := by simp only [lo]; ring

/-! ### 1.0 and -1.0 -/

theorem finiteOn_onePattern (F : Fmt) : FiniteOn F (onePattern F) := by cases F <;> decide

theorem finiteOn_negOnePattern (F : Fmt) : FiniteOn F (negOnePattern F) := by cases F <;> decide

theorem floatResult_roundF_one (F : Fmt) : floatResult F (roundF F 1) = onePattern F := by
  rw [roundF_one]
  cases F <;> decide

theorem answers_enc_one {c : Codec} (F : Fmt) {w : Nat} (hw : LegalWidth Config.params c w) :
    Answers (enc c F w (onePattern F)) (.ok (widen (hi c w))) :=
  answers_enc_of_scale_eq hw (finiteOn_onePattern F) (isCode_hi c hw.1)
    (by rw [valueOn, fval_onePattern, scale_one c hw.1])

theorem answers_dec_hi {c : Codec} (F : Fmt) {w : Nat} (hw : LegalWidth Config.params c w) :
    Answers (dec c F w (widen (hi c w))) (.ok (onePattern F)) :=
  floatResult_roundF_one F ▸ answers_dec_of_unscale_eq F hw (isCode_hi c hw.1) (unscale_hi c hw.1)

theorem answers_enc_neg_one {c : Codec} (F : Fmt) {w : Nat} (hw : LegalWidth Config.params c w) {n : ℤ}
    (hn : IsCode c w n) (h : scale c w (-1) = n) :
    Answers (enc c F w (negOnePattern F)) (.ok (widen n)) :=
  answers_enc_of_scale_eq hw (finiteOn_negOnePattern F) hn (by rw [valueOn, fval_negOnePattern, h])

theorem answers_dec_neg_one {c : Codec} (F : Fmt) {w : Nat} (hw : LegalWidth Config.params c w) {n : ℤ}
    (hn : IsCode c w n) (h : unscale c w n = -1) :
    Answers (dec c F w (widen n)) (.ok (negOnePattern F)) :=
  floatResult_roundF_neg_one F ▸ answers_dec_of_unscale_eq F hw hn h

/-! ### Zero -/

theorem valueOn_zero (F : Fmt) : valueOn F 0#64 = 0 := by
  have hzero : floatOperand F 0#64 = roundF F 0 := by
    rw [roundF_zero]
    cases F <;> decide
  rw [valueOn, hzero, fval_roundF_zero]

theorem valueOn_signBit (F : Fmt) : valueOn F (signBit F) = 0 := by
  have h := valueOn_xor_signBit F 0#64
  rwa [BitVec.zero_xor, valueOn_zero, neg_zero] at h

theorem finiteOn_zero (F : Fmt) : FiniteOn F 0#64 := by cases F <;> decide

theorem finiteOn_signBit (F : Fmt) : FiniteOn F (signBit F) := by cases F <;> decide

theorem isCode_zero (c : Codec) {w : Nat} (h : 2 ≤ w) : IsCode c w 0 := by
  have hhalf := two_le_pow_pred h
  have hw := two_pow_half h
  cases c <;> simp only [IsCode, lo, hi] <;> omega

theorem scale_zero {c : Codec} (hc : c ≠ .sn) (w : Nat) : scale c w 0 = 0 := by
  cases c with
  | u => exact zero_mul _
  | sz => exact zero_mul _
  | sn => exact absurd rfl hc

theorem unscale_zero {c : Codec} (hc : c ≠ .sn) (w : Nat) : unscale c w 0 = 0 := by
  cases c with
  | u => simp [unscale]
  | sz => simp [unscale]
  | sn => exact absurd rfl hc

theorem answers_enc_zero {c : Codec} (hc : c ≠ .sn) {F : Fmt} {w : Nat}
    (hw : LegalWidth Config.params c w) {v : PortWord} (hv : FiniteOn F v) (h0 : valueOn F v = 0) :
    Answers (enc c F w v) (.ok 0#64) :=
  answers_enc_of_scale_eq hw hv (isCode_zero c hw.1) (by rw [h0, scale_zero hc, Int.cast_zero])

theorem answers_dec_zero {c : Codec} (hc : c ≠ .sn) (F : Fmt) {w : Nat}
    (hw : LegalWidth Config.params c w) : Answers (dec c F w 0#64) (.ok 0#64) := by
  have h := answers_dec_of_unscale_eq F hw (isCode_zero c hw.1) (unscale_zero hc w)
  rwa [roundF_zero, floatResult_zero] at h

/-- A code other than 0 is not the all-zero word. -/
theorem widen_ne_zero {c : Codec} {w : Nat} (h2 : 2 ≤ w) (h64 : w ≤ 64) {n : ℤ} (hn : IsCode c w n)
    (h0 : n ≠ 0) : widen n ≠ 0#64 :=
  mt (widen_inj h2 h64 hn (isCode_zero c h2)).1 h0

/-- Settles O35: the boundary inputs of each codec, by the lemmas about 0, 1 and -1 above. -/
theorem extremesRoundTrip : Obligations.ExtremesRoundTrip := by
  refine ⟨fun F w h2 h32 => ?_, fun F w h2 h64 => ?_⟩
  · have hu : LegalWidth Config.params .u w := ⟨h2, h32⟩
    exact ⟨answers_enc_zero (by decide) hu (finiteOn_zero F) (valueOn_zero F),
      answers_dec_zero (by decide) F hu, answers_enc_one F hu, answers_dec_hi F hu⟩
  · have hsz : LegalWidth Config.params .sz w := ⟨h2, h64⟩
    have hsn : LegalWidth Config.params .sn w := ⟨h2, h64⟩
    have hbottom := isCode_sz_lo_add_one h2
    have hpow := two_le_pow_pred h2
    rw [← lo_sz_add_one]
    exact ⟨answers_enc_neg_one F hsz hbottom (scale_sz_neg_one w),
      answers_dec_neg_one F hsz hbottom (unscale_sz_lo_add_one h2),
      answers_enc_one F hsz, answers_dec_hi F hsz,
      answers_enc_neg_one F hsn (isCode_lo .sn h2) (scale_sn_neg_one h2),
      answers_dec_neg_one F hsn (isCode_lo .sn h2) (unscale_lo .sn h2),
      answers_enc_one F hsn, answers_dec_hi F hsn,
      widen_ne_zero h2 h64 hbottom (by simp only [lo]; omega),
      widen_ne_zero h2 h64 (isCode_hi .sz h2) (by omega),
      widen_ne_zero h2 h64 (isCode_lo .sz h2) (by omega)⟩

/-- Settles O36: the two zeros have the value 0, which scales to 0. -/
theorem exactZero : Obligations.ExactZero := by
  have zeros {c : Codec} (hc : c ≠ .sn) (F : Fmt) {w : Nat} (hw : LegalWidth Config.params c w) :
      Answers (enc c F w 0#64) (.ok 0#64) ∧ Answers (enc c F w (signBit F)) (.ok 0#64) ∧
      Answers (dec c F w 0#64) (.ok 0#64) :=
    ⟨answers_enc_zero hc hw (finiteOn_zero F) (valueOn_zero F),
      answers_enc_zero hc hw (finiteOn_signBit F) (valueOn_signBit F), answers_dec_zero hc F hw⟩
  exact ⟨fun F w h2 h32 => zeros (c := .u) (by decide) F ⟨h2, h32⟩,
    fun F w h2 h64 => zeros (c := .sz) (by decide) F ⟨h2, h64⟩⟩

/-- Settles O37: the quotient of the code is not 0, so its float is not, and both zeros have the value 0. -/
theorem withoutZeroNeverDecodesToZero : Obligations.WithoutZeroNeverDecodesToZero := by
  intro F w n h2 h64 hn
  have hq := isQuotient_unscale h2 h64 hn
  have hne : valueOn F (floatResult F (roundF F (unscale .sn w n))) ≠ 0 := by
    rw [valueOn, floatOperand_floatResult F (roundF_fits_finite F hq).1, ne_eq,
      fval_roundF_eq_zero_iff F hq]
    exact unscale_sn_ne_zero h2 n
  exact ⟨_, answers_dec_widen F ⟨h2, h64⟩ hn, fun h => hne (h ▸ valueOn_zero F),
    fun h => hne (h ▸ valueOn_signBit F), hne⟩

/-- Settles O44: the scenario's lines are rows of R180 and R181 at W = 8. -/
theorem concreteScenario : Obligations.ConcreteScenario := by
  have hu : LegalWidth Config.params .u 8 := by decide
  have hsz : LegalWidth Config.params .sz 8 := by decide
  have hsn : LegalWidth Config.params .sn 8 := by decide
  have hlo : IsCode .sn 8 (lo .sn 8) := isCode_lo .sn (by decide)
  have hscale : scale .sn 8 (-1) = lo .sn 8 := scale_sn_neg_one (by decide)
  have hunscale : unscale .sn 8 (lo .sn 8) = -1 := unscale_lo .sn (by decide)
  have enc_zero (F : Fmt) : Answers (enc .sz F 8 0#64) (.ok 0#64) :=
    answers_enc_zero (by decide) hsz (finiteOn_zero F) (valueOn_zero F)
  exact ⟨answers_enc_one .d hu, answers_enc_one .s hu, answers_dec_hi .d hu, answers_dec_hi .s hu,
    enc_zero .d, enc_zero .s, answers_enc_neg_one .d hsn hlo hscale,
    answers_enc_neg_one .s hsn hlo hscale, answers_dec_neg_one .d hsn hlo hunscale,
    answers_dec_neg_one .s hsn hlo hunscale⟩

end Sys2Proof.Machine
end

section
/-! # Encode keeps the order of the operands (spec/44_guaranteed_properties.md R184)

The scale, the rounding and the clamp are all non-decreasing, and the infinities get the end codes
(`quantize_mono`). -/

namespace Sys2Proof.Machine

/-- The three ways of the order of R184: `-inf` below, `+inf` above, and finite values by value. -/
theorem operandLe_cases {F : Fmt} {v₁ v₂ : PortWord} (h : OperandLe F v₁ v₂) :
    (fclass F (floatOperand F v₁) = .negInf ∧ fclass F (floatOperand F v₂) ≠ .nan) ∨
    (fclass F (floatOperand F v₁) ≠ .nan ∧ fclass F (floatOperand F v₂) = .posInf) ∨
    (FiniteOn F v₁ ∧ FiniteOn F v₂ ∧ valueOn F v₁ ≤ valueOn F v₂) := by
  unfold OperandLe at h
  split at h
  next => exact h.elim
  next => exact h.elim
  next h₁ hnan => exact .inl ⟨h₁, hnan⟩
  next h₂ hnan _ => exact .inr (.inl ⟨hnan, h₂⟩)
  next h₁ h₂ => exact .inr (.inr ⟨h₁, h₂, h⟩)
  next => exact h.elim

theorem exists_quantize_of_ne_nan (p : Params) (c : Codec) {F : Fmt} (w : Nat) {x : FloatFields}
    (hx : fclass F x ≠ .nan) : ∃ n, quantize p c F w x = some n := by
  obtain ⟨hnan, -⟩ | ⟨-, e⟩ | ⟨-, e⟩ | ⟨-, e⟩ := quantize_cases p c F w x
  · exact absurd hnan hx
  all_goals exact ⟨_, e⟩

theorem quantize_mono (p : Params) (c : Codec) {F : Fmt} {w : Nat} (h : 2 ≤ w) {v₁ v₂ : PortWord}
    (hle : OperandLe F v₁ v₂) :
    ∃ n₁ n₂, quantize p c F w (floatOperand F v₁) = some n₁ ∧
      quantize p c F w (floatOperand F v₂) = some n₂ ∧ n₁ ≤ n₂ := by
  obtain ⟨h₁, h₂⟩ | ⟨h₁, h₂⟩ | ⟨h₁, h₂, hval⟩ := operandLe_cases hle
  · obtain ⟨n, hn⟩ := exists_quantize_of_ne_nan p c w h₂
    exact ⟨_, n, quantize_negInf h₁, hn, (quantize_isCode h hn).1⟩
  · obtain ⟨n, hn⟩ := exists_quantize_of_ne_nan p c w h₁
    exact ⟨n, _, hn, quantize_posInf h₂, (quantize_isCode h hn).2⟩
  · exact ⟨_, _, quantize_finite h₁, quantize_finite h₂,
      clamp_mono (lo_le_hi c h) (rnd_mono p.tie (scale_mono c h hval))⟩

/-- Settles O38. -/
theorem encodeIsMonotone : Obligations.EncodeIsMonotone := by
  intro p c F w v₁ v₂ hp hw hle
  obtain ⟨n₁, n₂, e₁, e₂, hn⟩ := quantize_mono p c hw.1 hle
  have hread {n : ℤ} (hcode : IsCode c w n) : readCode c (widen n) = n :=
    readCode_widen c hw.1 (hw.2.trans (wmax_le hp c)) hcode
  refine ⟨_, _, encodeOp_of_quantize hw e₁, encodeOp_of_quantize hw e₂, ?_⟩
  rwa [hread (quantize_isCode hw.1 e₁), hread (quantize_isCode hw.1 e₂)]

end Sys2Proof.Machine
end

section
/-! # The step of a codec (spec/44_guaranteed_properties.md R187, R189, R190, R192)

Where the `max` of R108's table does not act, a code's exact value misses any `f` by as many steps as the code
misses the scaled `f` (`unscale_sub`). The spacing of the exact values, their order and the bound of half a
step on the exact error follow; the float nearest the exact value misses an input, a float itself, by at most
twice the exact error (`roundF_sub_le_twice`). -/

namespace Sys2Proof.Machine

/-! ### Exact values in steps -/

/-- The `max` of R108's table does not act on the code: any but the bottom code of `SZ`. -/
def Unclipped (c : Codec) (w : Nat) (n : ℤ) : Prop := c = .sz → lo .sz w < n

theorem Unclipped.mono {c : Codec} {w : Nat} {m n : ℤ} (h : Unclipped c w m) (hmn : m ≤ n) :
    Unclipped c w n := fun hc => (h hc).trans_le hmn

theorem oneStep_pos (c : Codec) {w : Nat} (h : 2 ≤ w) : 0 < oneStep c w := by
  have hspan := three_le_codeSpan h
  have hmax := one_le_codeMax h
  cases c <;> exact div_pos (by norm_num) (by linarith)

theorem unscale_sz_of_lo_lt {w : Nat} (h : 2 ≤ w) {n : ℤ} (hn : lo .sz w < n) :
    unscale .sz w n = n / (2 ^ (w - 1) - 1) := by
  have hmax := one_le_codeMax h
  have hn' : ((lo .sz w + 1 : ℤ) : ℚ) ≤ n := by exact_mod_cast hn
  rw [lo_sz_add_one] at hn'
  push_cast at hn'
  exact max_eq_left ((le_div_iff₀ (by linarith)).2 (by linarith))

theorem unscale_sub {c : Codec} {w : Nat} (h : 2 ≤ w) {n : ℤ} (hn : Unclipped c w n) (f : ℚ) :
    unscale c w n - f = (n - scale c w f) * oneStep c w := by
  have hspan : (2 : ℚ) ^ w - 1 ≠ 0 := by linarith [three_le_codeSpan h]
  have hmax : (2 : ℚ) ^ (w - 1) - 1 ≠ 0 := by linarith [one_le_codeMax h]
  cases c with
  | u => simp only [unscale, scale, oneStep]; field_simp
  | sz => rw [unscale_sz_of_lo_lt h (hn rfl)]; simp only [scale, oneStep]; field_simp
  | sn => simp only [unscale, scale, oneStep]; field_simp; ring

theorem abs_unscale_sub {c : Codec} {w : Nat} (h : 2 ≤ w) {n : ℤ} (hn : Unclipped c w n) (f : ℚ) :
    |unscale c w n - f| = |(n : ℚ) - scale c w f| * oneStep c w := by
  rw [unscale_sub h hn, abs_mul, abs_of_pos (oneStep_pos c h)]

theorem unscale_sub_unscale {c : Codec} {w : Nat} (h : 2 ≤ w) {m n : ℤ} (hm : Unclipped c w m)
    (hn : Unclipped c w n) : unscale c w n - unscale c w m = (n - m) * oneStep c w := by
  linarith [unscale_sub h hm 0, unscale_sub h hn 0]

theorem unscale_succ_sub {c : Codec} {w : Nat} (h : 2 ≤ w) {n : ℤ} (hn : Unclipped c w n) :
    unscale c w (n + 1) - unscale c w n = oneStep c w := by
  rw [unscale_sub_unscale h hn (hn.mono (Int.lt_succ n).le)]
  push_cast; ring

/-! ### The spacing (R190) -/

theorem oneStep_sn_lt {w : Nat} (h : 2 ≤ w) : oneStep .sn w < 1 / (2 ^ (w - 1) - 1) := by
  have hspan := three_le_codeSpan h
  have hmax := one_le_codeMax h
  have hw := two_pow_half_rat h
  rw [oneStep, div_lt_div_iff₀ (by linarith) (by linarith)]
  linarith

/-- Twice a power of two is not one more than a power of two above 1: the latter is odd, or the former at
most 1. -/
theorem two_mul_zpow_ne {w : Nat} (h : 2 ≤ w) (k : ℤ) : 2 * (2 : ℚ) ^ k ≠ 2 ^ w + 1 := by
  intro heq
  rcases le_or_gt 0 k with hk | hk
  · lift k to ℕ using hk
    have hint : 2 * (2 : ℤ) ^ k = 2 ^ w + 1 := by exact_mod_cast heq
    have hw := two_pow_half h
    omega
  · have hle : (2 : ℚ) ^ k ≤ 1 := zpow_le_one_of_nonpos₀ (by norm_num) hk.le
    linarith [three_le_codeSpan h]

theorem oneStep_sn_ne {w : Nat} (h : 2 ≤ w) (k : ℤ) : oneStep .sn w ≠ 1 / ((2 : ℚ) ^ k - 1) := by
  intro heq
  have hspan := three_le_codeSpan h
  have hden : (2 : ℚ) ^ k - 1 ≠ 0 := by
    intro h0
    rw [h0, div_zero] at heq
    exact (oneStep_pos .sn h).ne' heq
  rw [oneStep, div_eq_div_iff (by linarith) hden] at heq
  exact two_mul_zpow_ne h k (by linarith)

theorem oneStep_sn_eq {w : Nat} (h : 2 ≤ w) : oneStep .sn w = 1 / (2 ^ (w - 1) - 1 / 2) := by
  have hspan := three_le_codeSpan h
  have hmax := one_le_codeMax h
  have hw := two_pow_half_rat h
  rw [oneStep, div_eq_div_iff (by linarith) (by linarith)]
  linarith

/-- Settles O41: neighbouring exact values lie one step apart, and the step of `SN` compares so. -/
theorem quantizationStep : Obligations.QuantizationStep := by
  intro w n h
  have hspan := three_le_codeSpan h
  refine ⟨unscale_succ_sub (c := .u) h nofun, fun hn => unscale_succ_sub (c := .sz) h fun _ => hn,
    unscale_lo .sz h, unscale_sz_lo_add_one h, unscale_succ_sub (c := .sn) h nofun,
    fun k _ => oneStep_sn_ne h k, oneStep_sn_eq h, ?_, oneStep_sn_lt h⟩
  exact div_lt_div_of_pos_right one_lt_two (by linarith)

/-! ### The exact error (R189) -/

/-- The codes of in-domain inputs leave out the bottom code of `SZ` (R145). -/
theorem unclipped_rnd_scale (t : Tie) {c : Codec} {w : Nat} (h : 2 ≤ w) {f : ℚ} (hf : InDomain c f) :
    Unclipped c w (rnd t (scale c w f)) := by
  rintro rfl
  exact Int.lt_of_add_one_le (rnd_scale_sz_mem t h hf).1

theorem abs_unscale_sub_le_of_near {c : Codec} {w : Nat} (h : 2 ≤ w) {n : ℤ} (hn : Unclipped c w n)
    {f : ℚ} (hnear : |(n : ℚ) - scale c w f| ≤ 1 / 2) : |unscale c w n - f| ≤ oneStep c w / 2 := by
  have hstep := (oneStep_pos c h).le
  calc |unscale c w n - f| = |(n : ℚ) - scale c w f| * oneStep c w := abs_unscale_sub h hn f
    _ ≤ 1 / 2 * oneStep c w := mul_le_mul_of_nonneg_right hnear hstep
    _ = oneStep c w / 2 := by ring

/-- Settles O40. -/
theorem exactErrorBound : Obligations.ExactErrorBound := by
  intro p c F w x h hx hf
  have hn := unclipped_rnd_scale p.tie h hf
  refine ⟨_, quantize_of_inDomain p h hx hf, ?_, ?_, fun heq => ?_⟩
  · rw [unscale_sub h hn]
    cases c <;> simp only [scale, oneStep] <;> ring
  · exact abs_unscale_sub_le_of_near h hn (rnd_near p.tie _)
  · rw [abs_unscale_sub h hn, div_eq_mul_inv, mul_comm (oneStep c w)] at heq
    have hhalf := mul_right_cancel₀ (oneStep_pos c h).ne' heq
    exact isTie_of_abs_sub_eq_half (hhalf.trans (one_div 2).symm)

/-! ### The order of the decoded values (R192) -/

theorem unscale_lt {c : Codec} {w : Nat} (h : 2 ≤ w) {m n : ℤ} (hm : Unclipped c w m) (hmn : m < n) :
    unscale c w m < unscale c w n := by
  have hapart : (0 : ℚ) < n - m := sub_pos.2 (by exact_mod_cast hmn)
  have hgap := unscale_sub_unscale h hm (hm.mono hmn.le)
  linarith [mul_pos hapart (oneStep_pos c h)]

/-- Only the bottom two codes of `SZ` share an exact value. -/
theorem unscale_eq_iff {c : Codec} {w : Nat} (h : 2 ≤ w) {m n : ℤ} (hm : IsCode c w m) (hmn : m < n) :
    unscale c w m = unscale c w n ↔ c = .sz ∧ m = lo c w ∧ n = lo c w + 1 := by
  by_cases hclip : Unclipped c w m
  · refine iff_of_false (unscale_lt h hclip hmn).ne ?_
    rintro ⟨rfl, hlo, -⟩
    exact (hclip rfl).ne' hlo
  · obtain ⟨rfl, hle⟩ := Classical.not_imp.1 hclip
    obtain rfl : m = lo .sz w := (not_lt.1 hle).antisymm hm.1
    have hlo : unscale .sz w (lo .sz w) = unscale .sz w (lo .sz w + 1) :=
      (unscale_lo .sz h).trans (unscale_sz_lo_add_one h).symm
    refine ⟨fun heq => ⟨rfl, rfl, ?_⟩, fun ⟨_, _, hn⟩ => hn ▸ hlo⟩
    have hnot : ¬ lo .sz w + 1 < n := fun hlt =>
      (unscale_lt h (fun _ => Int.lt_succ _) hlt).ne (hlo.symm.trans heq)
    omega

/-- The decode of a widened code answers a finite float, the rounded exact value, under any parameters. -/
theorem exists_decodeOp_widen {p : Params} (hp : p.Legal) {c : Codec} (F : Fmt) {w : Nat} {n : ℤ}
    (hw : LegalWidth p c w) (hn : IsCode c w n) :
    ∃ y, decodeOp p c F w (widen n) = .ok y ∧ FiniteOn F y ∧
      valueOn F y = fval F (roundF F (unscale c w n)) := by
  have hread := readCode_widen c hw.1 (hw.2.trans (wmax_le hp c)) hn
  have hok : decodeOp p c F w (widen n) = .ok (floatResult F (roundF F (unscale c w n))) := by
    rw [decodeOp, if_pos hw, hread, if_pos hn]
  obtain ⟨hfields, hfin, -⟩ := decodeOp_ok_spec hp hok
  exact ⟨_, hok, hfin, by rw [valueOn, hfields, hread]⟩

/-- Settles O42. The first example is a closed fact, the second the decode of the greatest code. -/
theorem decodeIsMonotone : Obligations.DecodeIsMonotone := by
  refine ⟨fun p c F w m n hp hw hm hn hmn => ?_, answers_dec_of (c := .u) (F := .s) (by decide +kernel),
    answers_dec_hi (c := .u) .s (w := 32) (by decide)⟩
  have hle := unscale_mono c hw.1 hmn.le
  have hquot {n : ℤ} (hn : IsCode c w n) : IsQuotient (unscale c w n) :=
    isQuotient_unscale hw.1 (hw.2.trans (wmax_le hp c)) hn
  obtain ⟨y, hy, -, hyval⟩ := exists_decodeOp_widen hp F hw hm
  obtain ⟨z, hz, -, hzval⟩ := exists_decodeOp_widen hp F hw hn
  refine ⟨hle, unscale_eq_iff hw.1 hm hmn, y, z, hy, hz, ?_⟩
  rw [hyval, hzval]
  exact roundF_mono (hquot hm) (hquot hn) hle

/-! ### The error of the returned float (R187) -/

theorem roundF_sub_le_twice {F : Fmt} {q : ℚ} (hq : IsQuotient q) {x : FloatFields} (hx : x.Fits F) :
    |fval F (roundF F q) - fval F x| ≤ 2 * |q - fval F x| := by
  have htri := abs_sub_le (fval F (roundF F q)) q (fval F x)
  have hnear := roundF_nearest hq hx
  rw [abs_sub_comm (fval F x)] at hnear
  linarith

/-- `round_F` errs by at most half a unit in the last place of its argument (R102). -/
theorem roundF_half_ulp (F : Fmt) {q : ℚ} (h0 : q ≠ 0) (hq : IsQuotient q) :
    |fval F (roundF F q) - q| ≤ (2 : ℚ) ^ (ilog2 |q| - (fracBits F : ℤ) - 1) := by
  obtain ⟨-, -, hnear⟩ := significand_spec F (abs_pos.2 h0)
  have hu : (0 : ℚ) < 2 ^ (ilog2 |q| - (fracBits F : ℤ)) := by positivity
  rw [(roundF_magnitude F h0 hq).2, abs_mul_sub_eq hu, zpow_sub_one₀ two_ne_zero,
    mul_comm, inv_eq_one_div]
  exact mul_le_mul_of_nonneg_left hnear hu.le

theorem roundF_sub_le_add_half_ulp (F : Fmt) {q : ℚ} (h0 : q ≠ 0) (hq : IsQuotient q) (f : ℚ) :
    |fval F (roundF F q) - f| ≤ |q - f| + (2 : ℚ) ^ (ilog2 |q| - (fracBits F : ℤ) - 1) := by
  linarith [abs_sub_le (fval F (roundF F q)) q f, roundF_half_ulp F h0 hq]

/-- The largest float below 1 of binary64 encodes to a code at W = 64 that binary32 decodes to 1: an error of
2^-53 where a step is about 2^-63. -/
theorem crossFormatError : ∃ v x y : PortWord, FiniteOn .d v ∧ InDomain .sz (valueOn .d v) ∧
    Answers (.qszD 64 v) (.ok x) ∧ Answers (.dqszS 64 x) (.ok y) ∧
    oneStep .sz 64 < |valueOn .s y - valueOn .d v| := by
  refine ⟨0x3FEFFFFFFFFFFFFF#64, 0x7FFFFFFFFFFFFBFF#64, onePattern .s, by decide, ?_,
    answers_enc_of (c := .sz) (F := .d) (by decide +kernel),
    answers_dec_of (c := .sz) (F := .s) (by decide +kernel), by decide +kernel⟩
  unfold InDomain
  decide +kernel

/-- Settles O39: within a format by `roundF_sub_le_twice`, across formats by `roundF_sub_le_add_half_ulp`. -/
theorem roundTripErrorBound : Obligations.RoundTripErrorBound := by
  refine ⟨fun p c F w v hp hw hv hf => ?_, fun w h => oneStep_sn_lt h, crossFormatError⟩
  have hquant := quantize_of_inDomain p hw.1 hv hf
  have hcode := quantize_isCode hw.1 hquant
  have h64 := hw.2.trans (wmax_le hp c)
  have hq := isQuotient_unscale hw.1 h64 hcode
  have herr := abs_unscale_sub_le_of_near hw.1 (unclipped_rnd_scale p.tie hw.1 hf) (rnd_near p.tie _)
  refine ⟨_, encodeOp_of_quantize hw hquant, ?_, fun G => ?_⟩
  · obtain ⟨y, hy, -, hval⟩ := exists_decodeOp_widen hp F hw hcode
    have htwice := roundF_sub_le_twice hq (floatOperand_fits F v)
    exact ⟨y, hy, by rw [hval]; linarith⟩
  · obtain ⟨y, hy, -, hval⟩ := exists_decodeOp_widen hp G hw hcode
    rw [readCode_widen c hw.1 h64 hcode]
    refine ⟨y, hy, ?_⟩
    rw [hval]
    exact ⟨fun h0 => by rw [h0, fval_roundF_zero],
      fun h0 => roundF_sub_le_add_half_ulp G h0 hq (valueOn F v)⟩

end Sys2Proof.Machine
end

section
/-! # Decode then encode (spec/44_guaranteed_properties.md R193)

Up to the widths of R193 (a) half a step is more than the error of `round_F` on the quotients
(`roundF_near_below_one`, `ulp_lt_oneStep`), so the float of a code scales to within less than half of it. At
the larger widths a step is so short that the code next to the greatest, at `1 - step`, has no float within
half a step: the floats next to it are 1 and `1 - 2^(-1-P)` (`half_lt_abs_fval_sub`). -/

namespace Sys2Proof.Machine

/-! ### The step against the last place of the floats below 1 -/

theorem oneStep_anti (c : Codec) {w w' : Nat} (h : 2 ≤ w) (hw : w ≤ w') : oneStep c w' ≤ oneStep c w := by
  have hspan := three_le_codeSpan h
  have hmax := one_le_codeMax h
  have hpow : (2 : ℚ) ^ w ≤ 2 ^ w' := pow_le_pow_right₀ one_le_two hw
  have hpow' : (2 : ℚ) ^ (w - 1) ≤ 2 ^ (w' - 1) := pow_le_pow_right₀ one_le_two (by omega)
  cases c <;> exact div_le_div_of_nonneg_left (by norm_num) (by linarith) (by linarith)

theorem two_le_roundTripWidth (F : Fmt) (c : Codec) : 2 ≤ roundTripWidth F c := by
  cases F <;> cases c <;> decide

theorem roundTripWidth_le_wmax (F : Fmt) (c : Codec) : roundTripWidth F c ≤ wmax Config.params c := by
  cases F <;> cases c <;> decide

/-- The unit in the last place of the floats from 1/2 up to 1. -/
def ulpBelowOne (F : Fmt) : ℚ := (2 : ℚ) ^ (-1 - (fracBits F : ℤ))

theorem ulp_lt_oneStep {F : Fmt} {c : Codec} {w : Nat} (h : 2 ≤ w) (hw : w ≤ roundTripWidth F c) :
    ulpBelowOne F < oneStep c w := by
  refine lt_of_lt_of_le ?_ (oneStep_anti c h hw)
  cases F <;> cases c <;> norm_num [ulpBelowOne, fracBits, oneStep, roundTripWidth]

theorem three_oneStep_lt_two_ulp {F : Fmt} {c : Codec} {w : Nat} (hw : roundTripWidth F c < w)
    (hmax : w ≤ wmax Config.params c) : 3 * oneStep c w < 2 * ulpBelowOne F := by
  have hanti := oneStep_anti c ((two_le_roundTripWidth F c).trans (Nat.le_succ _)) hw
  have hnext : ¬ (F = .d ∧ c = .u) → 3 * oneStep c (roundTripWidth F c + 1) < 2 * ulpBelowOne F := by
    cases F <;> cases c <;> norm_num [ulpBelowOne, fracBits, oneStep, roundTripWidth]
  refine lt_of_le_of_lt (by linarith) (hnext ?_)
  rintro ⟨rfl, rfl⟩
  exact absurd hmax (not_le.2 hw)

/-! ### The code comes back -/

/-- On the quotients `round_F` errs by at most half a unit in the last place below 1: it is exact where the
magnitude is 1. -/
theorem roundF_near_below_one (F : Fmt) {q : ℚ} (hq : IsQuotient q) :
    |fval F (roundF F q) - q| ≤ ulpBelowOne F / 2 := by
  have hulp : 0 ≤ ulpBelowOne F / 2 := by unfold ulpBelowOne; positivity
  by_cases hexact : fval F (roundF F q) = q
  · rwa [hexact, sub_self, abs_zero]
  have h0 : q ≠ 0 := by
    rintro rfl
    exact hexact (fval_roundF_zero F)
  obtain ⟨-, hone⟩ := hq.resolve_left h0
  have hlt : |q| < 1 := by
    refine hone.lt_of_ne fun habs => hexact ?_
    obtain rfl | rfl := (abs_eq zero_le_one).1 habs
    · rw [roundF_one, fval_onePattern]
    · rw [roundF_neg_one, fval_negOnePattern]
  have hexp : ilog2 |q| < 0 := by
    have hpow : (2 : ℚ) ^ ilog2 |q| < 2 ^ (0 : ℤ) :=
      (ilog2_spec (abs_pos.2 h0)).1.trans_lt (by rwa [zpow_zero])
    exact (zpow_lt_zpow_iff_right₀ one_lt_two).1 hpow
  calc |fval F (roundF F q) - q| ≤ (2 : ℚ) ^ (ilog2 |q| - (fracBits F : ℤ) - 1) := roundF_half_ulp F h0 hq
    _ ≤ 2 ^ (-1 - (fracBits F : ℤ) - 1) := zpow_le_zpow_right₀ one_le_two (by omega)
    _ = ulpBelowOne F / 2 := by rw [zpow_sub_one₀ two_ne_zero, ulpBelowOne, div_eq_mul_inv]

/-- The scaled value of a code's float is within less than half of the code. -/
theorem abs_sub_scale_roundF_lt {F : Fmt} {c : Codec} {w : Nat} {n : ℤ} (h : 2 ≤ w)
    (hw : w ≤ roundTripWidth F c) (h64 : w ≤ 64) (hn : IsCode c w n) (hclip : Unclipped c w n) :
    |(n : ℚ) - scale c w (fval F (roundF F (unscale c w n)))| < 1 / 2 := by
  have hstep := oneStep_pos c h
  have hnear := roundF_near_below_one F (isQuotient_unscale h h64 hn)
  rw [abs_sub_comm, abs_unscale_sub h hclip] at hnear
  have hulp := ulp_lt_oneStep h hw
  exact lt_of_mul_lt_mul_right (by linarith) hstep.le

/-- Of two codes with one exact value, the one where the `max` does not act comes back. -/
theorem answers_dec_enc_of_unscale_eq {F : Fmt} {c : Codec} {w : Nat} {m n : ℤ} (h : 2 ≤ w)
    (hw : w ≤ roundTripWidth F c) (hm : IsCode c w m) (hn : IsCode c w n) (hclip : Unclipped c w n)
    (heq : unscale c w m = unscale c w n) :
    ∃ y, Answers (dec c F w (widen m)) (.ok y) ∧ Answers (enc c F w y) (.ok (widen n)) := by
  have hlegal : LegalWidth Config.params c w := ⟨h, hw.trans (roundTripWidth_le_wmax F c)⟩
  have h64 := hlegal.2.trans (wmax_le config_legal c)
  obtain ⟨y, hy, hfin, hval⟩ := exists_decodeOp_widen config_legal F hlegal hm
  have hback := abs_sub_scale_roundF_lt h hw h64 hn hclip
  rw [← heq, ← hval] at hback
  exact ⟨y, answers_dec_of hy, answers_enc_of_quantize hlegal (quantize_of_near _ hfin hn hback)⟩

/-! ### The code next to the greatest does not -/

theorem one_eq_mul_ulpBelowOne (F : Fmt) : 1 = ((2 ^ (fracBits F + 1) : ℤ) : ℚ) * ulpBelowOne F := by
  rw [ulpBelowOne]
  push_cast
  rw [← zpow_natCast, ← zpow_add₀ two_ne_zero, eq_comm,
    zpow_eq_one_iff_right₀ zero_le_two (by norm_num)]
  push_cast; ring

/-- No float lies within `s/2` of `1 - s` if `s` is short: a float of at least 1/2 is a multiple of the unit,
so it is at least 1 or at most one unit below. -/
theorem half_lt_abs_fval_sub {F : Fmt} {x : FloatFields} (hx : x.Fits F) {s : ℚ} (hs : 0 < s)
    (hshort : 3 * s < 2 * ulpBelowOne F) : s / 2 < |1 - s - fval F x| := by
  have hone := one_eq_mul_ulpBelowOne F
  have hulp : 0 < ulpBelowOne F := by unfold ulpBelowOne; positivity
  have hhalf : ulpBelowOne F ≤ 2 ^ (-1 : ℤ) := zpow_le_zpow_right₀ one_le_two (by omega)
  norm_num at hhalf
  have hmag : |1 - s - (|fval F x|)| ≤ |1 - s - fval F x| := by
    have h := abs_abs_sub_abs_le (1 - s) (fval F x)
    rwa [abs_of_pos (by linarith : 0 < 1 - s)] at h
  refine lt_of_lt_of_le (lt_abs.2 ?_) hmag
  obtain ⟨m, hm⟩ | hbelow := abs_fval_cases hx (-1)
  · rw [← ulpBelowOne] at hm
    rcases le_or_gt (2 ^ (fracBits F + 1)) m with hge | hlt
    · have hge' : ((2 ^ (fracBits F + 1) : ℤ) : ℚ) ≤ m := by exact_mod_cast hge
      have := mul_le_mul_of_nonneg_right hge' hulp.le
      exact .inr (by linarith)
    · have hlt' : (m : ℚ) + 1 ≤ ((2 ^ (fracBits F + 1) : ℤ) : ℚ) := by exact_mod_cast hlt
      have := mul_le_mul_of_nonneg_right hlt' hulp.le
      exact .inl (by linarith)
  · norm_num at hbelow
    exact .inl (by linarith)

theorem lo_lt_hi_sub_one (c : Codec) {w : Nat} (h : 2 ≤ w) : lo c w < hi c w - 1 := by
  have hpow := two_le_pow_pred h
  have hw := two_pow_half h
  cases c <;> simp only [lo, hi] <;> omega

theorem unscale_hi_sub_one (c : Codec) {w : Nat} (h : 2 ≤ w) :
    unscale c w (hi c w - 1) = 1 - oneStep c w := by
  have hclip : Unclipped c w (hi c w - 1) := by
    rintro rfl
    exact lo_lt_hi_sub_one .sz h
  have hgap := unscale_succ_sub h hclip
  rw [sub_add_cancel, unscale_hi c h] at hgap
  linarith

/-- An in-domain float that encodes to a code lies within half a step of the code's exact value. -/
theorem abs_unscale_sub_le_of_quantize {p : Params} {c : Codec} {F : Fmt} {w : Nat} {x : FloatFields}
    {n : ℤ} (h : 2 ≤ w) (hx : fclass F x = .finite) (hf : InDomain c (fval F x))
    (hn : quantize p c F w x = some n) : |unscale c w n - fval F x| ≤ oneStep c w / 2 := by
  rw [quantize_of_inDomain p h hx hf] at hn
  obtain rfl := Option.some.inj hn
  exact abs_unscale_sub_le_of_near h (unclipped_rnd_scale p.tie h hf) (rnd_near p.tie _)

/-- Above the widths of R193 (a) the code next to the greatest gives another code back. -/
theorem exists_answers_dec_enc_ne {F : Fmt} {c : Codec} {w : Nat} (hw : roundTripWidth F c < w)
    (hmax : w ≤ wmax Config.params c) :
    ∃ (n m : ℤ) (y : PortWord), IsCode c w n ∧ lo c w < n ∧ IsCode c w m ∧ m ≠ n ∧
      Answers (dec c F w (widen n)) (.ok y) ∧ Answers (enc c F w y) (.ok (widen m)) := by
  have h2 : 2 ≤ w := (two_le_roundTripWidth F c).trans hw.le
  have hlegal : LegalWidth Config.params c w := ⟨h2, hmax⟩
  have hlo := lo_lt_hi_sub_one c h2
  have hn : IsCode c w (hi c w - 1) := ⟨hlo.le, Int.sub_le_self _ zero_le_one⟩
  obtain ⟨y, hy, hfin, hval⟩ := exists_decodeOp_widen config_legal F hlegal hn
  obtain ⟨-, -, hdom⟩ := decodeOp_ok_spec config_legal hy
  have hquant := quantize_of_inDomain Config.params h2 hfin hdom
  refine ⟨_, _, y, hn, hlo, quantize_isCode h2 hquant, fun heq => ?_, answers_dec_of hy,
    answers_enc_of_quantize hlegal hquant⟩
  have hnear := abs_unscale_sub_le_of_quantize h2 hfin hdom (hquant.trans (congrArg some heq))
  rw [unscale_hi_sub_one c h2] at hnear
  exact hnear.not_gt (half_lt_abs_fval_sub (floatOperand_fits F y) (oneStep_pos c h2)
    (three_oneStep_lt_two_ulp hw hmax))

/-- Settles O43. The bottom code of `SZ` has the exact value of the next one, which comes back. -/
theorem codeRoundTrip : Obligations.CodeRoundTrip := by
  refine ⟨fun c F w n h hw hn => ?_, fun c F w hw hmax => exists_answers_dec_enc_ne hw hmax,
    answers_dec_of (c := .sz) (F := .d) (by decide +kernel),
    answers_dec_hi (c := .sz) .d (w := 64) (by decide),
    answers_enc_one (c := .sz) .d (w := 64) (by decide)⟩
  split_ifs with hbottom
  · obtain ⟨rfl, rfl⟩ := hbottom
    exact answers_dec_enc_of_unscale_eq h hw hn (isCode_sz_lo_add_one h) (fun _ => Int.lt_succ _)
      ((unscale_lo .sz h).trans (unscale_sz_lo_add_one h).symm)
  · have hclip : Unclipped c w n := by
      rintro rfl
      exact hn.1.lt_of_ne fun heq => hbottom ⟨rfl, heq.symm⟩
    exact answers_dec_enc_of_unscale_eq h hw hn hn hclip rfl

end Sys2Proof.Machine
end

section
/-! # The four faults (spec/60_exceptions.md R211 to R222)

A request that decodes is answered as its instruction is, and `Raises` lists when an instruction raises
which fault, in the order of R219 (`instrResponse_eq_fault_iff`); a request that does not decode is answered
`ILLEGAL_COMMAND`. The statements below are these causes read from the raw bits: the fields of the command
(`raw_fields_of_decode_ok`), the bits of a NaN (`fclass_floatOperand_eq_nan_iff`) and the bits of a word
that is no widened code (`toNat_lt_two_pow_iff`, `toInt_range_iff`). -/

namespace Sys2Proof.Machine

/-! ### The causes of a fault -/

/-- When an instruction raises a fault: the causes of R214 to R216, the width before the operand (R219).
A decoded instruction is no illegal command. -/
def Raises (i : Instr) : Fault → Prop
  | .illegalCommand => False
  | .widthRange => ¬ LegalWidth Config.params i.codec i.width
  | .operandNan => LegalWidth Config.params i.codec i.width ∧ i.dir = .encode ∧
      fclass i.fmt (floatOperand i.fmt i.operand) = .nan
  | .codeRange => LegalWidth Config.params i.codec i.width ∧ i.dir = .decode ∧
      ¬ IsCode i.codec i.width (readCode i.codec i.operand)

theorem instrResponse_eq_fault_iff (i : Instr) (f : Fault) :
    instrResponse i = .fault f ↔ Raises i f := by
  rw [instrResponse]
  cases hdir : i.dir with
  | encode =>
    rw [opResponse_encode]
    obtain ⟨hw, e⟩ | ⟨hw, hx, e⟩ | ⟨hw, hx, n, -, -, e⟩ :=
      encodeOp_cases Config.params i.codec i.fmt i.width i.operand
    all_goals cases f <;> simp [Raises, LegalWidth, *]
  | decode =>
    rw [opResponse_decode]
    obtain ⟨hw, e⟩ | ⟨hw, hn, e⟩ | ⟨hw, hn, e⟩ :=
      decodeOp_cases Config.params i.codec i.fmt i.width i.operand
    all_goals cases f <;> simp [Raises, LegalWidth, *]

/-- What raises no fault is `OK` (R217). -/
theorem exists_instrResponse_eq_ok {i : Instr} (h : ∀ f, ¬ Raises i f) :
    ∃ x, instrResponse i = .ok x := by
  cases hi : instrResponse i with
  | ok x => exact ⟨x, rfl⟩
  | fault f => exact absurd ((instrResponse_eq_fault_iff i f).1 hi) (h f)

theorem answers_fault_of_raises {i : Instr} {f : Fault} (h : Raises i f) : Answers i (.fault f) :=
  (instrResponse_eq_fault_iff i f).2 h ▸ answers_instrResponse i

/-! ### The response of a request -/

/-- A request has one response, R108's. -/
theorem responds_iff_transact_eq {r : Request} {resp : Response} :
    Responds r resp ↔ transact Config.params r = resp := by
  constructor
  · intro h
    have hboth := (responds_transact r ⟨[r], []⟩ [] rfl).symm.trans (h ⟨[r], []⟩ [] rfl)
    simpa using hboth
  · rintro rfl
    exact responds_transact r

theorem responds_iff_instrResponse_eq {r : Request} {i : Instr} {resp : Response}
    (hd : Sys2Proof.decode r = .ok i) : Responds r resp ↔ instrResponse i = resp := by
  rw [responds_iff_transact_eq, transact_of_decode_ok hd]

theorem responds_fault_iff_raises {r : Request} {i : Instr} {f : Fault}
    (hd : Sys2Proof.decode r = .ok i) : Responds r (.fault f) ↔ Raises i f := by
  rw [responds_iff_instrResponse_eq hd, instrResponse_eq_fault_iff]

theorem exists_responds_ok {r : Request} {i : Instr} (hd : Sys2Proof.decode r = .ok i)
    (h : ∀ f, ¬ Raises i f) : ∃ x, Responds r (.ok x) := by
  simpa only [responds_iff_instrResponse_eq hd] using exists_instrResponse_eq_ok h

/-! ### The fields of a legal command -/

theorem exists_decode_ok {r : Request} (h : LegalCommand r.cmd) :
    ∃ i, Sys2Proof.decode r = .ok i := by
  obtain ⟨hillegal, -⟩ | ⟨-, -, i, hd, -⟩ := decodingIsTotal r
  · exact absurd h (not_and_or.2 (hillegal.imp_right not_not.2))
  · exact ⟨i, hd⟩

theorem responds_illegalCommand {r : Request} (h : ¬ LegalCommand r.cmd) :
    Responds r (.fault .illegalCommand) := by
  obtain ⟨-, e, hd⟩ | ⟨hrsv, hcodec, -⟩ := decodingIsTotal r
  · exact responds_iff_transact_eq.2 (transact_of_decode_error hd)
  · exact absurd ⟨hrsv, hcodec⟩ h

/-- The fields of the decoded instruction, as the raw bits of the request have them (R61, R63, R64). -/
theorem raw_fields_of_decode_ok {r : Request} {i : Instr} (h : Sys2Proof.decode r = .ok i) :
    (i.codec = .u ↔ r.cmd.extractLsb 1 0 = 0#2) ∧
    i.dir = (if r.cmd.getLsbD 2 then .decode else .encode) ∧
    i.fmt = (if r.cmd.getLsbD 3 then .d else .s) ∧
    i.width = (r.cmd.extractLsb 10 4).toNat ∧ i.operand = r.operand := by
  obtain ⟨-, e, hd⟩ | ⟨-, -, i', hd, hcodec, hdir, hfmt, hwidth, -, hoperand⟩ := decodingIsTotal r
  · cases h.symm.trans hd
  · obtain rfl := Except.ok.inj (hd.symm.trans h)
    refine ⟨?_, hdir, hfmt, hwidth, hoperand⟩
    rw [hcodec]
    split_ifs with hu <;> simp [hu]

theorem wmax_config (c : Codec) : wmax Config.params c = if c = .u then 32 else 64 := by
  cases c <;> rfl

theorem widthInRange_iff_legalWidth {r : Request} {i : Instr} (hd : Sys2Proof.decode r = .ok i) :
    WidthInRange r.cmd ↔ LegalWidth Config.params i.codec i.width := by
  obtain ⟨hcodec, -, -, hwidth, -⟩ := raw_fields_of_decode_ok hd
  rw [LegalWidth, wmax_config, hwidth]
  simp only [hcodec]

theorem responds_illegalCommand_iff (r : Request) :
    Responds r (.fault .illegalCommand) ↔ ¬ LegalCommand r.cmd := by
  refine ⟨fun hr hlegal => ?_, responds_illegalCommand⟩
  obtain ⟨i, hd⟩ := exists_decode_ok hlegal
  exact (responds_fault_iff_raises hd).1 hr

/-- A fault other than `ILLEGAL_COMMAND` has a legal command, and the cause `P` that the decoded
instruction raises it for. -/
theorem responds_fault_iff_of_raises {r : Request} {f : Fault} {P : Prop} (hf : f ≠ .illegalCommand)
    (h : ∀ i, Sys2Proof.decode r = .ok i → (Raises i f ↔ P)) :
    Responds r (.fault f) ↔ LegalCommand r.cmd ∧ P := by
  by_cases hlegal : LegalCommand r.cmd
  · obtain ⟨i, hd⟩ := exists_decode_ok hlegal
    rw [responds_fault_iff_raises hd, h i hd, and_iff_right hlegal]
  · refine iff_of_false (fun hr => hf ?_) (fun hP => hlegal hP.1)
    have hresp := responds_iff_transact_eq.1 (responds_illegalCommand hlegal)
    exact Response.fault.inj ((responds_iff_transact_eq.1 hr).symm.trans hresp)

/-! ### `ILLEGAL_COMMAND` and `WIDTH_RANGE` -/

/-- Settles O15. -/
theorem illegalCommandResponse : Obligations.IllegalCommandResponse := by
  intro r
  rw [responds_illegalCommand_iff, LegalCommand, not_and_or, not_ne_iff]

/-- The widths that the codec of the command refuses, the faulting values of R214. -/
theorem not_widthInRange_iff (cmd : CmdWord) :
    ¬ WidthInRange cmd ↔
      (cmd.extractLsb 10 4).toNat < 2 ∨
      (cmd.extractLsb 1 0 = 0#2 ∧ 32 < (cmd.extractLsb 10 4).toNat) ∨
      (cmd.extractLsb 1 0 ≠ 0#2 ∧ 64 < (cmd.extractLsb 10 4).toNat) := by
  by_cases hcodec : cmd.extractLsb 1 0 = 0#2
  · simp only [WidthInRange, hcodec, if_true, ne_eq, not_true_eq_false, true_and, false_and, or_false]
    omega
  · simp only [WidthInRange, hcodec, if_false, ne_eq, not_false_eq_true, true_and, false_and, false_or]
    omega

/-- Settles O16. -/
theorem widthRangeResponse : Obligations.WidthRangeResponse := by
  intro r
  refine responds_fault_iff_of_raises (by decide) fun i hd => ?_
  rw [← not_widthInRange_iff, widthInRange_iff_legalWidth hd]
  rfl

/-! ### `OPERAND_NAN` -/

theorem fclass_eq_nan_iff (F : Fmt) (x : FloatFields) :
    fclass F x = .nan ↔ x.exp = 2 ^ expBits F - 1 ∧ x.frac ≠ 0 := by
  unfold fclass
  split_ifs <;> simp [*]

theorem toNat_eq_pred_iff {n : Nat} (x : BitVec n) : x.toNat = 2 ^ n - 1 ↔ x = BitVec.allOnes n := by
  rw [← BitVec.toNat_inj, BitVec.toNat_allOnes]

theorem toNat_ne_zero_iff {n : Nat} (x : BitVec n) : x.toNat ≠ 0 ↔ x ≠ 0#n := by
  rw [Ne, Ne, ← BitVec.toNat_inj, BitVec.toNat_zero]

/-- A NaN on the port: exponent field all ones, fraction not zero; for `.S` in the low half (R95, R215). -/
theorem fclass_floatOperand_eq_nan_iff (F : Fmt) (v : PortWord) :
    fclass F (floatOperand F v) = .nan ↔
      match F with
      | .s => v.extractLsb 30 23 = BitVec.allOnes 8 ∧ v.extractLsb 22 0 ≠ 0#23
      | .d => v.extractLsb 62 52 = BitVec.allOnes 11 ∧ v.extractLsb 51 0 ≠ 0#52 := by
  rw [fclass_eq_nan_iff]
  cases F with
  | s =>
    have hexp : (v.extractLsb 31 0).extractLsb 30 23 = v.extractLsb 30 23 :=
      BitVec.extractLsb'_extractLsb'_of_le (by decide)
    have hfrac : (v.extractLsb 31 0).extractLsb 22 0 = v.extractLsb 22 0 :=
      BitVec.extractLsb'_extractLsb'_of_le (by decide)
    rw [floatOperand, fieldsS, hexp, hfrac]
    exact and_congr (toNat_eq_pred_iff _) (toNat_ne_zero_iff _)
  | d => exact and_congr (toNat_eq_pred_iff _) (toNat_ne_zero_iff _)

/-- Settles O17. -/
theorem operandNanResponse : Obligations.OperandNanResponse := by
  intro r
  refine responds_fault_iff_of_raises (by decide) fun i hd => ?_
  obtain ⟨-, hdir, hfmt, -, hoperand⟩ := raw_fields_of_decode_ok hd
  rw [Raises, ← widthInRange_iff_legalWidth hd, fclass_floatOperand_eq_nan_iff, hdir, hfmt, hoperand]
  cases r.cmd.getLsbD 2 <;> cases r.cmd.getLsbD 3 <;> simp

/-! ### `CODE_RANGE` -/

theorem two_pow_pred_lt_iff (w m : Nat) : 2 ^ w - 1 < m ↔ ¬ m < 2 ^ w := by
  have := Nat.two_pow_pos w
  omega

theorem isCode_u_iff (w : Nat) (v : PortWord) : IsCode .u w (readCode .u v) ↔ v.toNat < 2 ^ w := by
  simp only [IsCode, lo, hi, readCode]
  zify
  omega

theorem isCode_signed_iff {c : Codec} (hc : c ≠ .u) (w : Nat) (v : PortWord) :
    IsCode c w (readCode c v) ↔ -(2 ^ (w - 1)) ≤ v.toInt ∧ v.toInt < 2 ^ (w - 1) := by
  cases c with
  | u => exact absurd rfl hc
  | sz => exact and_congr_right' Int.le_sub_one_iff
  | sn => exact and_congr_right' Int.le_sub_one_iff

/-- No widened code of the width, by the integer (R93, R216). -/
theorem not_isCode_iff (c : Codec) (w : Nat) (v : PortWord) :
    ¬ IsCode c w (readCode c v) ↔
      if c = .u then 2 ^ w - 1 < v.toNat
      else v.toInt < -(2 ^ (w - 1)) ∨ 2 ^ (w - 1) - 1 < v.toInt := by
  split_ifs with hc
  · rw [hc, isCode_u_iff, two_pow_pred_lt_iff]
  · rw [isCode_signed_iff hc]
    omega

theorem toNat_lt_two_pow_iff {n : Nat} (x : BitVec n) (k : Nat) :
    x.toNat < 2 ^ k ↔ ∀ j, k ≤ j → x.getLsbD j = false :=
  ⟨fun h _ => getLsbD_eq_false_of_toNat_lt h, Nat.lt_pow_two_of_testBit _⟩

/-- A signed word whose bits from the bound of a range on agree is in the range: it or its complement has
no bit there. -/
theorem toInt_range_of_getLsbD_eq {n k : Nat} {x : BitVec n}
    (h : ∀ j, k ≤ j → j < n → x.getLsbD j = x.msb) : -(2 ^ k) ≤ x.toInt ∧ x.toInt < 2 ^ k := by
  have hval := BitVec.toInt_eq_msb_cond x
  have hx := x.isLt
  cases hs : x.msb with
  | false =>
    have hlt : x.toNat < 2 ^ k := (toNat_lt_two_pow_iff x k).2 fun j hj => by
      by_cases hn : j < n
      · rw [h j hj hn, hs]
      · exact BitVec.getLsbD_of_ge x j (not_lt.1 hn)
    rw [hs, if_neg (by decide)] at hval
    zify at hlt
    omega
  | true =>
    have hlt : (~~~x).toNat < 2 ^ k := (toNat_lt_two_pow_iff _ k).2 fun j hj => by
      by_cases hn : j < n
      · rw [BitVec.getLsbD_not, h j hj hn, hs, Bool.not_true, Bool.and_false]
      · exact BitVec.getLsbD_of_ge _ j (not_lt.1 hn)
    rw [hs, if_pos rfl] at hval
    rw [BitVec.toNat_not] at hlt
    have hge : 2 ^ n ≤ x.toNat + 2 ^ k := by omega
    zify at hge hval hx
    omega

/-- A signed word lies in a range exactly when its bits from the bound on are all equal (R216). -/
theorem toInt_range_iff {n k : Nat} (hk : k < n) (x : BitVec n) :
    (-(2 ^ k) ≤ x.toInt ∧ x.toInt < 2 ^ k) ↔
      ∀ i j, k ≤ i → i < n → k ≤ j → j < n → x.getLsbD i = x.getLsbD j := by
  constructor
  · rintro ⟨hl, hu⟩ i j hi hin hj hjn
    rw [getLsbD_eq_decide_neg hl hu hi hin, getLsbD_eq_decide_neg hl hu hj hjn]
  · intro h
    refine toInt_range_of_getLsbD_eq fun j hj hjn => ?_
    rw [BitVec.msb_eq_getLsbD_last]
    exact h j (n - 1) hj hjn (by omega) (by omega)

/-- Some bit of `OPERAND[63:W]` is 1 (R216). -/
theorem unsigned_out_of_range_iff (w : Nat) (v : PortWord) :
    2 ^ w - 1 < v.toNat ↔ ∃ j, w ≤ j ∧ j < 64 ∧ v.getLsbD j = true := by
  rw [two_pow_pred_lt_iff, toNat_lt_two_pow_iff]
  push Not
  refine exists_congr fun j => and_congr_right' ?_
  rw [Bool.ne_false_iff]
  exact ⟨fun h => ⟨BitVec.lt_of_getLsbD h, h⟩, And.right⟩

/-- The bits of `OPERAND[63:W-1]` are not all equal (R216). -/
theorem signed_out_of_range_iff {w : Nat} (h2 : 2 ≤ w) (h64 : w ≤ 64) (v : PortWord) :
    (v.toInt < -(2 ^ (w - 1)) ∨ 2 ^ (w - 1) - 1 < v.toInt) ↔
      ∃ j k, w - 1 ≤ j ∧ j < 64 ∧ w - 1 ≤ k ∧ k < 64 ∧ v.getLsbD j ≠ v.getLsbD k := by
  have hrange := not_congr (toInt_range_iff (show w - 1 < 64 by omega) v)
  push Not at hrange
  rw [← hrange]
  omega

/-- Settles O18. At W = 64 every word is in the range of a 64-bit signed integer. -/
theorem codeRangeResponse : Obligations.CodeRangeResponse := by
  refine ⟨fun r => ?_, fun w v h2 h64 =>
    ⟨unsigned_out_of_range_iff w v, signed_out_of_range_iff h2 h64 v⟩, fun v => ?_⟩
  · refine responds_fault_iff_of_raises (by decide) fun i hd => ?_
    obtain ⟨hcodec, hdir, -, hwidth, hoperand⟩ := raw_fields_of_decode_ok hd
    rw [Raises, ← widthInRange_iff_legalWidth hd, not_isCode_iff, hdir, hwidth, hoperand]
    simp only [hcodec]
    cases r.cmd.getLsbD 2 <;> simp
  · have hl := BitVec.le_toInt v
    have hu := BitVec.toInt_lt (x := v)
    omega

/-! ### The order of the checks -/

/-- Settles O19: with command and width in order, the only cause left is the operand's. -/
theorem faultPriority : Obligations.FaultPriority := by
  refine ⟨fun r => ⟨responds_illegalCommand, fun hlegal hw => ?_, fun hlegal hw i hd => ?_⟩,
    fun v => responds_illegalCommand (show ¬ LegalCommand 0x0803#16 by decide),
    fun v => responds_illegalCommand (show ¬ LegalCommand 0x0013#16 by decide),
    answers_fault_of_raises (f := .widthRange) (show ¬ LegalWidth Config.params .u 33 by decide),
    answers_fault_of_raises (f := .widthRange) (show ¬ LegalWidth Config.params .u 1 by decide),
    answers_fault_of_raises (f := .operandNan) ⟨by decide, rfl, by decide⟩⟩
  · obtain ⟨i, hd⟩ := exists_decode_ok hlegal
    exact (responds_fault_iff_raises hd).2 (mt (widthInRange_iff_legalWidth hd).2 hw)
  · have hwidth := (widthInRange_iff_legalWidth hd).1 hw
    obtain ⟨-, -, -, -, hoperand⟩ := raw_fields_of_decode_ok hd
    rw [← hoperand]
    refine ⟨fun hdir => ⟨fun hx => ?_, fun hx => ?_⟩, fun hdir => ⟨fun hn => ?_, fun hn => ?_⟩⟩
    · exact (responds_fault_iff_raises hd).2 ⟨hwidth, hdir, hx⟩
    · exact exists_responds_ok hd fun f => by cases f <;> simp [Raises, hwidth, hdir, hx]
    · exact (responds_fault_iff_raises hd).2 ⟨hwidth, hdir, hn⟩
    · exact exists_responds_ok hd fun f => by cases f <;> simp [Raises, hwidth, hdir, hn]

/-! ### A fault as a response -/

/-- Settles O20: two steps answer the two requests by R108, each alone. -/
theorem faultLeavesNoTrace : Obligations.FaultLeavesNoTrace := by
  intro r₁ r₂ f s rest hf hs
  have hfirst := responds_transact r₁ s (r₂ :: rest) hs
  rw [hf] at hfirst
  calc Sys2Proof.core.run 2 s
      = Sys2Proof.core.run 1 ⟨r₂ :: rest, s.responses ++ [.fault f]⟩ := run_of_step 1 hfirst
    _ = Sys2Proof.core.run 0
          ⟨rest, s.responses ++ [.fault f] ++ [transact Config.params r₂]⟩ :=
        run_of_step 0 (responds_transact r₂ _ rest rfl)
    _ = .next ⟨rest, s.responses ++ [.fault f, transact Config.params r₂]⟩ := by
        rw [List.append_assoc]; rfl

theorem status_eq_zero_iff (r : Response) : r.status = 0#3 ↔ ∃ x, r = .ok x := by
  cases r with
  | ok x => simp
  | fault f => cases f <;> simp [Fault.status]

theorem result_ne_none_iff (r : Response) : r.result ≠ none ↔ ∃ x, r = .ok x := by
  cases r <;> simp

/-- Settles O21. -/
theorem statusCodes : Obligations.StatusCodes :=
  ⟨rfl, rfl, rfl, rfl, fun r => ⟨status_toNat_le_four r, status_eq_zero_iff r,
    (status_eq_zero_iff r).trans (result_ne_none_iff r).symm⟩⟩

end Sys2Proof.Machine
end

section
/-! # Reset, the first request after it, and waiting (spec/70_reset_and_hazards.md R240)

A step has two equations: with no request waiting it keeps the state (`step_of_requests_nil`), and with
one waiting it answers R108's response (`responds_transact`). After reset both lists are empty, so the
requests presented then are all the requests there are, and none of them is answered. -/

namespace Sys2Proof.Machine

/-- Before the first answer, the requests presented are those that wait: the invariant holds with no
request answered. -/
theorem answersInOrder_of_responses_nil {s : State} (h : s.responses = []) :
    AnswersInOrder s.requests s :=
  ⟨[], rfl, h⟩

/-- Settles O12: after reset no response was delivered. -/
theorem answersInOrderAfterReset : Obligations.AnswersInOrderAfterReset := fun requests =>
  answersInOrder_of_responses_nil (s := { State.reset with requests := requests }) reset_responses

theorem step_of_requests_nil {s : State} (h : s.requests = []) : step s = .next s := by
  rw [step, fetch_of_nil h]

/-- Settles O13, by `step_of_requests_nil`. -/
theorem blockWaitsWithoutRequest : Obligations.BlockWaitsWithoutRequest :=
  fun _ => step_of_requests_nil

/-- Settles O14: the response is delivered behind those delivered before, of which reset leaves none. -/
theorem firstRequestAfterReset : Obligations.FirstRequestAfterReset := by
  refine ⟨reset_requests, reset_responses, fun r => ?_⟩
  have hanswer := responds_transact r { State.reset with requests := [r] } [] rfl
  rwa [reset_responses, List.nil_append] at hanswer

end Sys2Proof.Machine
end
